-- ==== Sys2Proof/Word.lean ====
section
/-! DEFINITION. The value types of the machine (spec/00_scope.md R5, R7). Every value is unsigned (R6).
-/
namespace Sys2Proof

/-- A Word: a 15-bit unsigned number, 0..32767; registers and stack elements hold Words (R7, R21, R26). -/
abbrev Word := BitVec 15

/-- A Raw: the 16-bit content of one storage slot, 0..65535 (R7, R27; decision D2, log entry 3). -/
abbrev Raw := BitVec 16

/-- A Byte: the unit of the two I/O channels, 0..255 (R7, R30, R31). -/
abbrev Byte := BitVec 8

/-- The program counter: 16 bits, legal values 0..32768 (R23; decision D4, log entry 6). -/
abbrev Pc := BitVec 16

/-- A RegIdx: 0..7, naming r0..r7 (R7, R21). -/
abbrev RegIdx := Fin 8

end Sys2Proof
end

