-- ==== Sys2Proof/Config.lean ====
section
/-! DEFINITION. The implementation parameters of spec/00_scope.md R5, and the reset values of
spec/10_state.md R37. The spec fixes every one of them; there is no free value in this machine.
-/
namespace Sys2Proof.Config

/-- `MODULUS`, the arithmetic modulus 2^15 (R5). -/
def modulus : Nat := 32768

/-- `MEM_SLOTS`: addresses 0..32767 exist (R5, R27). -/
def memSlots : Nat := 32768

/-- `REG_BASE`: the raw operand value that names r0 (R5, R82). -/
def regBase : Nat := 32768

/-- `REG_TOP`: the raw operand value that names r7 (R5, R82). -/
def regTop : Nat := 32775

/-- The greatest legal program counter (R5 `PC_BITS`, R23). -/
def pcMax : Nat := 32768

/-- What a slot that no image and no `wmem` has written holds (R37: 0 in every slot). -/
def unlistedSlot : Raw := 0

/-- The value of every register after reset (R37; decision D3, parameter `RESET_REGS`, log entry 2). -/
def resetReg : Word := 0

/-- The entry point: the program counter after reset (R37, R291; decision D3). -/
def entryPoint : Pc := 0

/-- `HALT_PC_ADVANCE` (R5): whether `halt` moves the program counter on. The spec's value is false
(decision D6, log entry 8). -/
def haltPcAdvance : Bool := false

/-- The choices of `RMEM_RAW_POLICY` (R5) that a 15-bit register admits: the third alternative the spec
names, copying all 16 bits, would need wider registers than R21 gives the machine. -/
inductive RmemRawPolicy where
  | fault
  | truncate
  deriving DecidableEq, Repr

/-- `RMEM_RAW_POLICY` (R5): what `rmem` does with a slot above 32767. The spec's value is fault
(decision D9, log entry 9). -/
def rmemRawPolicy : RmemRawPolicy := .fault

end Sys2Proof.Config
end

