-- ==== Sys2Proof/Syntax.lean ====
section
/-! DEFINITION. The instructions as syntax: the 22 rows of spec/opcode_table.json, with the operand
classes of spec/30_encoding.md R82 and the operand roles of R81.
-/
namespace Sys2Proof

/-- The role of an operand slot (R81): D, a register to be written; A and B, a value to be read. -/
inductive Role where
  | dest
  | value
  deriving DecidableEq, Repr

/-- The three classes of an operand slot (R82). The slot's class does not depend on its role; whether
the class is legal in the role is `Instr.wellFormed`, and is checked when the instruction runs. -/
inductive Operand where
  /-- Raw 0..32767: a literal value. -/
  | lit (v : Word)
  /-- Raw 32768..32775: register 0..7. -/
  | reg (r : RegIdx)
  /-- Raw 32776..65535: invalid in every role; it carries the raw slot. -/
  | invalid (w : Raw)
  deriving DecidableEq, Repr

/-- The 22 opcodes (R1, R85), in the order of the spec's table. -/
inductive Opcode where
  | halt | set | push | pop | eq | gt | jmp | jt | jf | add | mult | mod | and | or | not
  | rmem | wmem | call | ret | out | inp | noop
  deriving DecidableEq, Repr

/-- One constructor per row of the opcode table; operands in slot order, named by role letter (R81, R86).
`inp` is the row `in` (a Lean keyword). -/
inductive Instr where
  | halt
  | set (d a : Operand)
  | push (a : Operand)
  | pop (d : Operand)
  | eq (d a b : Operand)
  | gt (d a b : Operand)
  | jmp (a : Operand)
  | jt (a b : Operand)
  | jf (a b : Operand)
  | add (d a b : Operand)
  | mult (d a b : Operand)
  | mod (d a b : Operand)
  | and (d a b : Operand)
  | or (d a b : Operand)
  | not (d a : Operand)
  | rmem (d a : Operand)
  | wmem (a b : Operand)
  | call (a : Operand)
  | ret
  | out (a : Operand)
  | inp (d : Operand)
  | noop
  deriving DecidableEq, Repr

/-- The opcode of an instruction. -/
def Instr.opcode : Instr → Opcode
  | .halt => .halt
  | .set _ _ => .set
  | .push _ => .push
  | .pop _ => .pop
  | .eq _ _ _ => .eq
  | .gt _ _ _ => .gt
  | .jmp _ => .jmp
  | .jt _ _ => .jt
  | .jf _ _ => .jf
  | .add _ _ _ => .add
  | .mult _ _ _ => .mult
  | .mod _ _ _ => .mod
  | .and _ _ _ => .and
  | .or _ _ _ => .or
  | .not _ _ => .not
  | .rmem _ _ => .rmem
  | .wmem _ _ => .wmem
  | .call _ => .call
  | .ret => .ret
  | .out _ => .out
  | .inp _ => .inp
  | .noop => .noop

/-- The operands of an instruction, in slot order. -/
def Instr.operands : Instr → List Operand
  | .halt | .ret | .noop => []
  | .push a | .jmp a | .call a | .out a => [a]
  | .pop d | .inp d => [d]
  | .set d a | .not d a | .rmem d a => [d, a]
  | .jt a b | .jf a b | .wmem a b => [a, b]
  | .eq d a b | .gt d a b | .add d a b | .mult d a b | .mod d a b | .and d a b | .or d a b => [d, a, b]

end Sys2Proof
end

