-- ==== Sys2Proof/WellFormed.lean ====
section
/-! DEFINITION. Which instruction terms are legal encodings (spec/30_encoding.md R82 to R84, R88): every
destination operand names a register, and no operand is of the invalid class.
-/
namespace Sys2Proof

/-- Legal in a destination position: a register reference and nothing else (R84). -/
def Operand.legalDest : Operand → Bool
  | .reg _ => true
  | .lit _ | .invalid _ => false

/-- Legal in a value position: a literal or a register reference (R83). -/
def Operand.legalValue : Operand → Bool
  | .lit _ | .reg _ => true
  | .invalid _ => false

/-- Every operand is legal in its position (R88). -/
def Instr.wellFormed : Instr → Bool
  | .halt => true
  | .set d a => d.legalDest && a.legalValue
  | .push a => a.legalValue
  | .pop d => d.legalDest
  | .eq d a b => d.legalDest && a.legalValue && b.legalValue
  | .gt d a b => d.legalDest && a.legalValue && b.legalValue
  | .jmp a => a.legalValue
  | .jt a b => a.legalValue && b.legalValue
  | .jf a b => a.legalValue && b.legalValue
  | .add d a b => d.legalDest && a.legalValue && b.legalValue
  | .mult d a b => d.legalDest && a.legalValue && b.legalValue
  | .mod d a b => d.legalDest && a.legalValue && b.legalValue
  | .and d a b => d.legalDest && a.legalValue && b.legalValue
  | .or d a b => d.legalDest && a.legalValue && b.legalValue
  | .not d a => d.legalDest && a.legalValue
  | .rmem d a => d.legalDest && a.legalValue
  | .wmem a b => a.legalValue && b.legalValue
  | .call a => a.legalValue
  | .ret => true
  | .out a => a.legalValue
  | .inp d => d.legalDest
  | .noop => true

end Sys2Proof
end

