-- ==== Sys2Proof/Decode.lean ====
section
/-! DEFINITION. The decoder and the encoder (spec/30_encoding.md). An instruction is one opcode slot and
the operand slots its opcode needs (R80, R89). The decoder recognises the opcode (R112) and classifies
each operand slot (R82); whether an operand is legal in its role (R83, R84) is checked slot by slot by the
execution cycle (R113), which raises `InvalidOperandEncoding`.
-/
namespace Sys2Proof

/-- The opcode numbers (R85; decision D1, log entry 1). The one place that holds them. -/
def Opcode.number : Opcode → Nat
  | .halt => 0
  | .set => 1
  | .push => 2
  | .pop => 3
  | .eq => 4
  | .gt => 5
  | .jmp => 6
  | .jt => 7
  | .jf => 8
  | .add => 9
  | .mult => 10
  | .mod => 11
  | .and => 12
  | .or => 13
  | .not => 14
  | .rmem => 15
  | .wmem => 16
  | .call => 17
  | .ret => 18
  | .out => 19
  | .inp => 20
  | .noop => 21

/-- The roles of an opcode's operand slots, in slot order (R81, R86). -/
def Opcode.roles : Opcode → List Role
  | .halt | .ret | .noop => []
  | .push | .jmp | .call | .out => [.value]
  | .pop | .inp => [.dest]
  | .set | .not | .rmem => [.dest, .value]
  | .jt | .jf | .wmem => [.value, .value]
  | .eq | .gt | .add | .mult | .mod | .and | .or => [.dest, .value, .value]

/-- `k`, the number of operand slots (R86). -/
def Opcode.arity (op : Opcode) : Nat := op.roles.length

/-- All 22 opcodes, in the order of R85's table. -/
def Opcode.all : List Opcode :=
  [.halt, .set, .push, .pop, .eq, .gt, .jmp, .jt, .jf, .add, .mult, .mod, .and, .or, .not, .rmem, .wmem,
    .call, .ret, .out, .inp, .noop]

/-- The opcode slot of an opcode: all 16 bits hold the number (R81). -/
def Opcode.slot (op : Opcode) : Raw := BitVec.ofNat 16 op.number

/-- The opcode a slot names; none for every value but 0..21 (R87). -/
def Opcode.ofSlot (w : Raw) : Option Opcode := Opcode.all.find? fun op => op.slot == w

/-- The class of an operand slot (R82): bit 15 clear, a literal; bit 15 set and bits 14..3 clear, the
register of bits 2..0; otherwise invalid. -/
def classify (w : Raw) : Operand :=
  if w.toNat < Config.regBase then .lit (BitVec.ofNat 15 w.toNat)
  else if w.toNat ≤ Config.regTop then .reg (Fin.ofNat 8 (w.toNat - Config.regBase))
  else .invalid w

/-- Whether an operand is legal in a role: R84 for a destination, R83 for a value. -/
def Role.accepts : Role → Operand → Bool
  | .dest, o => o.legalDest
  | .value, o => o.legalValue

/-- What the decoder answers. -/
inductive Decoded where
  /-- The opcode is recognised and all its operand slots are there. -/
  | instr (i : Instr)
  /-- There is no opcode slot: `pc` is outside memory (R111). -/
  | noOpcodeSlot
  /-- The opcode slot is not one of 0..21 (R87, R112); it carries the slot. -/
  | unknownOpcode (w : Raw)
  /-- The opcode is recognised, but memory ends before its last operand slot (R66, R113); it carries the
  operand slots that could be fetched. -/
  | truncated (op : Opcode) (got : List Operand)
  deriving DecidableEq, Repr

/-- Apply a one-operand constructor to the first operand, if there is one. -/
def build1 (f : Operand → Instr) : List Operand → Option Instr
  | a :: _ => some (f a)
  | [] => none

/-- Apply a two-operand constructor to the first two operands, if there are two. -/
def build2 (f : Operand → Operand → Instr) : List Operand → Option Instr
  | a :: b :: _ => some (f a b)
  | _ => none

/-- Apply a three-operand constructor to the first three operands, if there are three. -/
def build3 (f : Operand → Operand → Operand → Instr) : List Operand → Option Instr
  | a :: b :: c :: _ => some (f a b c)
  | _ => none

/-- The instruction of an opcode and the operands that follow it; operands beyond the opcode's own are
not looked at (R67, R89). -/
def Opcode.build : Opcode → List Operand → Option Instr
  | .halt, _ => some .halt
  | .set, ops => build2 .set ops
  | .push, ops => build1 .push ops
  | .pop, ops => build1 .pop ops
  | .eq, ops => build3 .eq ops
  | .gt, ops => build3 .gt ops
  | .jmp, ops => build1 .jmp ops
  | .jt, ops => build2 .jt ops
  | .jf, ops => build2 .jf ops
  | .add, ops => build3 .add ops
  | .mult, ops => build3 .mult ops
  | .mod, ops => build3 .mod ops
  | .and, ops => build3 .and ops
  | .or, ops => build3 .or ops
  | .not, ops => build2 .not ops
  | .rmem, ops => build2 .rmem ops
  | .wmem, ops => build2 .wmem ops
  | .call, ops => build1 .call ops
  | .ret, _ => some .ret
  | .out, ops => build1 .out ops
  | .inp, ops => build1 .inp ops
  | .noop, _ => some .noop

/-- Decode the instruction at the head of a run of slots (R80, R89). -/
def decode : List Raw → Decoded
  | [] => .noOpcodeSlot
  | w :: ws =>
    match Opcode.ofSlot w with
    | none => .unknownOpcode w
    | some op =>
      match op.build (ws.map classify) with
      | some i => .instr i
      | none => .truncated op (ws.map classify)

/-- The slot of an operand (R91). -/
def Operand.slot : Operand → Raw
  | .lit v => BitVec.ofNat 16 v.toNat
  | .reg r => BitVec.ofNat 16 (Config.regBase + r.val)
  | .invalid w => w

/-- The slots of an instruction: the opcode slot, then the operand slots (R81, R91). -/
def encode (i : Instr) : List Raw := i.opcode.slot :: i.operands.map Operand.slot

/-- The length of an instruction in slots, from the opcode alone (R89). -/
def Instr.length (i : Instr) : Nat := i.opcode.arity + 1

/-- The four slots of an instruction given as the `nbits` low bits of `w`, slot 0 lowest; every bit above
`nbits` is 0. -/
def tableSlots (nbits w : Nat) : List Raw :=
  [0, 1, 2, 3].map fun n => BitVec.ofNat 16 ((w % 2 ^ nbits) / 2 ^ (16 * n))

/-- The instruction the decoder reads from an instruction whose bits are `w`, numbered as
spec/opcode_table.json numbers them. -/
def decodeTableWord (nbits w : Nat) : Option Instr :=
  match decode (tableSlots nbits w) with
  | .instr i => some i
  | .noOpcodeSlot | .unknownOpcode _ | .truncated _ _ => none

end Sys2Proof
end

