-- ==== Sys2Proof/Machine/State.lean ====
section
/-! DEFINITION. The state of one core (spec/10_state.md R20): `(x, pc, stack, mem, run, frec, inq, outlog)`
and nothing else (R25, R32, R33), and its reset values (R37).
-/
namespace Sys2Proof.Machine

/-- The address space (R27): the slots that differ from `Config.unlistedSlot`, as (address, slot) pairs in
strictly rising address order. The cell is a slot because the spec's unit of addressing is the slot and no
byte of a slot has an address (R50, R51; log entry 4). -/
structure Memory where
  cells : List (Nat × Raw)
  deriving DecidableEq, Repr

/-- The run state (R28). -/
inductive RunState where
  | ready
  | running
  | suspended
  | halted
  | faulted
  deriving DecidableEq, Repr

/-- The fault kinds of the machine (R250). Taking one is a change of state (R115), not a stop of the model. -/
inductive FaultKind where
  | outOfRange
  | invalidOperandEncoding
  /-- Never raised (R253); the kind keeps its name and code. -/
  | invalidRegister
  | stackUnderflow
  | divisionByZero
  | unknownOpcode
  | nonWordData
  deriving DecidableEq, Repr

/-- The fault record `(kind, fpc, fop)` (R29): the kind, the address of the faulting instruction, and the
opcode context: the opcode number, the raw word of an unknown opcode, or none. -/
structure FaultRecord where
  kind : FaultKind
  fpc : Pc
  fop : Option Raw
  deriving DecidableEq, Repr

/-- The complete state of one core (R20). -/
structure State where
  /-- `x`, the register file r0..r7 (R21). -/
  regs : Vector Word 8
  /-- `pc` (R23). -/
  pc : Pc
  /-- `stack` (R26); the head of the list is the top. -/
  stack : List Word
  /-- `mem` (R27). -/
  mem : Memory
  /-- `run` (R28). -/
  run : RunState
  /-- `frec` (R29). -/
  frec : Option FaultRecord
  /-- `inq` (R30); the head of the list is the oldest byte. -/
  inq : List Byte
  /-- `outlog` (R31); oldest byte first. -/
  outlog : List Byte
  deriving DecidableEq, Repr

/-- Ways the model stops with a fault. There is none: every fault of the spec is a next state, with `run`
and `frec` written (R115), and no instruction is without an effect. -/
inductive Fault where
  deriving DecidableEq, Repr

/-- Ways the model refuses. No instruction ends in one; the host operations of spec/48_host_operations.md
R234 do. Each is safe: the core is unchanged. -/
inductive Refusal where
  /-- An arm of exec that has no meaning yet; raised by none. Safe. -/
  | notModelled (mnemonic : String)
  /-- `load` of more than 32768 words (R221, R234); raised by `load`. Safe. -/
  | imageTooLong (words : Nat)
  /-- An image with an odd number of bytes (R221, R234); raised by `loadImage`. Safe. -/
  | imageOddLength (bytes : Nat)
  /-- `restore` of a value that is no snapshot of a core (R228, R234); raised by `restore`. Safe. -/
  | snapshotIllFormed
  /-- `supply` of a value outside 0..255 (R224, R234); raised by `supply`. Safe. -/
  | supplyNotByte
  deriving DecidableEq, Repr

/-- The machine right after reset (R37, R220): memory all zero, registers zero, the stack and the channels
empty, `pc` at the entry point, `Ready`. -/
def State.reset : State where
  regs := Vector.replicate 8 Config.resetReg
  pc := Config.entryPoint
  stack := []
  mem := { cells := [] }
  run := .ready
  frec := none
  inq := []
  outlog := []

end Sys2Proof.Machine
end

