-- ==== Sys2Proof/Machine/Ops.lean ====
section
/-! DEFINITION. The named operations over memory, registers, stack, channels and run state that the
meanings share (spec/00_scope.md R8, spec/20_memory.md, spec/40_execution_cycle.md R114 to R117).
-/
namespace Sys2Proof.Machine

/-! ### Widths -/

/-- `zext_16` of a Word (R7): the slot that holds it; bit 15 is 0. -/
def wordToSlot (v : Word) : Raw := BitVec.ofNat 16 v.toNat

/-- `zext_15` of a Byte (R202; decision D26). -/
def byteToWord (b : Byte) : Word := BitVec.ofNat 15 b.toNat

/-- `v[7:0]` of a Word (R201). -/
def lowByte (v : Word) : Byte := BitVec.ofNat 8 v.toNat

/-- A Word as a program counter value: the same number (R24). -/
def wordToPc (v : Word) : Pc := BitVec.ofNat 16 v.toNat

/-- A slot read as plain data (R64 c, R181): the Word it holds; none where it holds none and
`RMEM_RAW_POLICY` is fault (decision D9, log entry 9). -/
def slotAsWord (w : Raw) : Option Word :=
  if w.toNat < Config.modulus then some (BitVec.ofNat 15 w.toNat)
  else
    match Config.rmemRawPolicy with
    | .fault => none
    | .truncate => some (BitVec.ofNat 15 w.toNat)

/-! ### Memory -/

/-- The slot a list of cells gives an address; an address it does not list holds `Config.unlistedSlot`. -/
def lookupCell : List (Nat × Raw) → Nat → Raw
  | [], _ => Config.unlistedSlot
  | (k, w) :: rest, a => if k = a then w else lookupCell rest a

/-- Put a cell at its place in a rising list. -/
def insertCell (a : Nat) (v : Raw) : List (Nat × Raw) → List (Nat × Raw)
  | [] => [(a, v)]
  | (k, w) :: rest => if a < k then (a, v) :: (k, w) :: rest else (k, w) :: insertCell a v rest

/-- Take an address out of a list of cells. -/
def eraseCell (a : Nat) : List (Nat × Raw) → List (Nat × Raw)
  | [] => []
  | (k, w) :: rest => if k = a then eraseCell a rest else (k, w) :: eraseCell a rest

/-- Replace the slot at an address. Writing what an unlisted address holds takes the entry out, so that
equal memories are equal data. -/
def Memory.put (m : Memory) (a : Nat) (v : Raw) : Memory where
  cells := if v = Config.unlistedSlot then eraseCell a m.cells else insertCell a v (eraseCell a m.cells)

/-- `MemRead(addr, 1)` (R54): none is `OutOfRange`. The address is not reduced before the check. -/
def memRead (m : Memory) (a : Nat) : Option Raw :=
  if a < Config.memSlots then some (lookupCell m.cells a) else none

/-- `MemWrite(addr, 1, v)` (R55): none is `OutOfRange`; otherwise the whole slot is replaced. -/
def memWrite (m : Memory) (a : Nat) (v : Word) : Option Memory :=
  if a < Config.memSlots then some (m.put a (wordToSlot v)) else none

/-- The cells of a list of slots laid from an address up, those equal to `Config.unlistedSlot` left out. -/
def imageCells (a : Nat) : List Raw → List (Nat × Raw)
  | [] => []
  | w :: ws => if w = Config.unlistedSlot then imageCells (a + 1) ws else (a, w) :: imageCells (a + 1) ws

/-- The memory that holds an image from address 0 and 0 beyond it (R221). -/
def Memory.ofImage (ws : List Raw) : Memory where
  cells := imageCells 0 ws

/-- Write a list of slots from an address up. -/
def Memory.putAll (m : Memory) (a : Nat) : List Raw → Memory
  | [] => m
  | w :: ws => (m.put a w).putAll (a + 1) ws

/-- The canonical form of a list of cells whose addresses are all at least `lo`. -/
def cellsWf (lo : Nat) : List (Nat × Raw) → Bool
  | [] => true
  | (k, w) :: rest => decide (lo ≤ k) && decide (k < Config.memSlots) && w != Config.unlistedSlot && cellsWf (k + 1) rest

/-- The canonical form of memory: addresses strictly rising and below 32768, no entry equal to what an
unlisted address holds. -/
def Memory.wf (m : Memory) : Bool := cellsWf 0 m.cells

/-! ### Registers, stack, program counter -/

/-- `x[i]` (R8, R21). -/
def State.reg (s : State) (r : RegIdx) : Word := s.regs[r]

/-- `x[i] <- v` (R8, R21): no register is hardwired. -/
def State.setReg (s : State) (r : RegIdx) (v : Word) : State := { s with regs := s.regs.set r v }

/-- `push(v)` (R8, R26): never fails. -/
def State.push (s : State) (v : Word) : State := { s with stack := v :: s.stack }

/-- `pop()` (R8, R26): the top and the state without it; `StackUnderflow` on an empty stack. -/
def State.pop (s : State) : Except FaultKind (Word × State) :=
  match s.stack with
  | [] => .error .stackUnderflow
  | v :: rest => .ok (v, { s with stack := rest })

/-- Commit by sequential advance over `n` slots (R24 a, R114): `pc` is not reduced modulo 32768. -/
def State.advance (s : State) (n : Nat) : State := { s with pc := s.pc + BitVec.ofNat 16 n, run := .running }

/-- Commit by control transfer to a Word (R24 b to f, R114, R150). -/
def State.jumpTo (s : State) (t : Word) : State := { s with pc := wordToPc t, run := .running }

/-! ### Channels -/

/-- `out_put(b)` (R8, R31): appended at the end. -/
def State.outPut (s : State) (b : Byte) : State := { s with outlog := s.outlog ++ [b] }

/-- `in_avail()` and `in_take()` together (R8, R30): the oldest byte and the state without it. -/
def State.inTake (s : State) : Option (Byte × State) :=
  match s.inq with
  | [] => none
  | b :: rest => some (b, { s with inq := rest })

/-! ### Ways a step ends (R115 to R117) -/

/-- Taking a fault (R115, R259): `run` and `frec` are written and nothing else changes; `pc` stays at the
faulting instruction (decision D7). There is no handler (R259) and no return from a fault (R261, R262). -/
def State.takeFault (s : State) (k : FaultKind) (fop : Option Raw) : State :=
  { s with run := .faulted, frec := some { kind := k, fpc := s.pc, fop := fop } }

/-- Suspension (R116): only `run` changes. -/
def State.suspend (s : State) : State := { s with run := .suspended }

/-- Halt (R117, R204): `pc` stays at the instruction unless `HALT_PC_ADVANCE` (decision D6). -/
def State.halt (s : State) : State :=
  { s with run := .halted, pc := if Config.haltPcAdvance then s.pc + 1 else s.pc }

/-- How an instruction ends (R114, R115): with the state its rule leaves, or, when the rule raises a fault,
with that fault taken in the state before the step, whatever the rule had computed. -/
def conclude (op : Opcode) (s : State) : Except FaultKind State → Host.Outcome State Fault Refusal
  | .ok t => .next t
  | .error k => .next (s.takeFault k (some op.slot))

end Sys2Proof.Machine
end

