-- ==== Sys2Proof/Machine/Operands.lean ====
section
/-! DEFINITION. The operand forms: `val` and `dst` of spec/30_encoding.md R83 and R84. They are the only
two; there is no other addressing mode (R180).
-/
namespace Sys2Proof.Machine

/-- `val(w)` (R83): a literal is itself, a register reference the register's content. It never reads memory. -/
def State.val (s : State) : Operand → Except FaultKind Word
  | .lit v => .ok v
  | .reg r => .ok (s.reg r)
  | .invalid _ => .error .invalidOperandEncoding

/-- `dst(w)` (R84): a register reference; a literal or an invalid slot raises `InvalidOperandEncoding`. -/
def dst : Operand → Except FaultKind RegIdx
  | .reg r => .ok r
  | .lit _ | .invalid _ => .error .invalidOperandEncoding

/-- The shape shared by the instructions that write a function of one value to a register: destination
first, then the value (R113), then the write and the advance over three slots (R114). -/
def unary (op : Opcode) (f : Word → Except FaultKind Word) (d a : Operand) (s : State) :
    Host.Outcome State Fault Refusal :=
  conclude op s do
    let r ← dst d
    let va ← s.val a
    let v ← f va
    return (s.setReg r v).advance 3

/-- The shape shared by the instructions that write a function of two values to a register: the operands
in slot order (R113), then the write and the advance over four slots (R114). -/
def binary (op : Opcode) (f : Word → Word → Except FaultKind Word) (d a b : Operand) (s : State) :
    Host.Outcome State Fault Refusal :=
  conclude op s do
    let r ← dst d
    let va ← s.val a
    let vb ← s.val b
    let v ← f va vb
    return (s.setReg r v).advance 4

end Sys2Proof.Machine
end

