-- ==== Sys2Proof/Machine/Arith.lean ====
section
/-! DEFINITION. `add`, `mult`, `mod`, `and`, `or`, `not` (spec/44_arithmetic_logic.md). Sums and products
are computed on natural numbers and then reduced (R160).
-/
namespace Sys2Proof.Machine

/-- The low 15 bits of an exact result (R160). -/
def reduce (n : Nat) : Word := BitVec.ofNat 15 (n % Config.modulus)

/-- `add D A B` (R161). -/
def execAdd (d a b : Operand) (s : State) : Host.Outcome State Fault Refusal :=
  binary .add (fun va vb => .ok (reduce (va.toNat + vb.toNat))) d a b s

/-- `mult D A B` (R162). -/
def execMult (d a b : Operand) (s : State) : Host.Outcome State Fault Refusal :=
  binary .mult (fun va vb => .ok (reduce (va.toNat * vb.toNat))) d a b s

/-- The remainder of unsigned division (R163, R255). -/
def remainder (va vb : Word) : Except FaultKind Word :=
  if vb = 0 then .error .divisionByZero else .ok (BitVec.ofNat 15 (va.toNat % vb.toNat))

/-- `mod D A B` (R163). -/
def execMod (d a b : Operand) (s : State) : Host.Outcome State Fault Refusal :=
  binary .mod remainder d a b s

/-- `and D A B` (R164). -/
def execAnd (d a b : Operand) (s : State) : Host.Outcome State Fault Refusal :=
  binary .and (fun va vb => .ok (va &&& vb)) d a b s

/-- `or D A B` (R165). -/
def execOr (d a b : Operand) (s : State) : Host.Outcome State Fault Refusal :=
  binary .or (fun va vb => .ok (va ||| vb)) d a b s

/-- `not D A` (R166): each of the 15 bits inverted. -/
def execNot (d a : Operand) (s : State) : Host.Outcome State Fault Refusal :=
  unary .not (fun va => .ok (~~~va)) d a s

end Sys2Proof.Machine
end

