-- ==== Sys2Proof/Machine/CallReturn.lean ====
section
/-! DEFINITION. `call`, `ret` (spec/46_call_return.md). Return addresses stand on the operand stack (R190).
-/
namespace Sys2Proof.Machine

/-- The return address of a `call` at `p` (R191): `p + 2`, or `OutOfRange` where that is no Word (decision
D5, log entry 7). -/
def returnAddress (p : Pc) : Except FaultKind Word :=
  if p.toNat + 2 < Config.memSlots then .ok (BitVec.ofNat 15 (p.toNat + 2)) else .error .outOfRange

/-- `call A` (R191): the target is read before the push. -/
def execCall (a : Operand) (s : State) : Host.Outcome State Fault Refusal :=
  conclude .call s do
    let t ← s.val a
    let ra ← returnAddress s.pc
    return (s.push ra).jumpTo t

/-- `ret` (R192): an empty stack is `StackUnderflow`, not a halt (conflict C1). -/
def execRet (s : State) : Host.Outcome State Fault Refusal :=
  conclude .ret s do
    let (t, u) ← s.pop
    return u.jumpTo t

end Sys2Proof.Machine
end

