-- ==== Sys2Proof/Machine/Flags.lean ====
section
/-! DEFINITION. The machine has no flags or condition codes (spec/10_state.md R25). What takes their place
is computed here: the Word a comparison writes to a register, and the test a conditional jump makes.
-/
namespace Sys2Proof.Machine

/-- The result of a comparison: 1 or 0 (R140, R141). -/
def truthWord (b : Bool) : Word := if b then 1 else 0

/-- The condition of `jt`, and of `jf` negated: any value but zero holds (R152, R153). -/
def condHolds (v : Word) : Bool := v != 0

end Sys2Proof.Machine
end

