-- ==== Sys2Proof/Machine/Compare.lean ====
section
/-! DEFINITION. `eq`, `gt` (spec/42_compare.md).
-/
namespace Sys2Proof.Machine

/-- `eq D A B` (R140). -/
def execEq (d a b : Operand) (s : State) : Host.Outcome State Fault Refusal :=
  binary .eq (fun va vb => .ok (truthWord (va == vb))) d a b s

/-- `gt D A B` (R141): unsigned. -/
def execGt (d a b : Operand) (s : State) : Host.Outcome State Fault Refusal :=
  binary .gt (fun va vb => .ok (truthWord (decide (vb.toNat < va.toNat)))) d a b s

end Sys2Proof.Machine
end

