-- ==== Sys2Proof/Machine/DataMove.lean ====
section
/-! DEFINITION. `set`, `push`, `pop` (spec/41_data_move_stack.md).
-/
namespace Sys2Proof.Machine

/-- `set D A` (R131): `x[d] <- v`. -/
def execSet (d a : Operand) (s : State) : Host.Outcome State Fault Refusal :=
  unary .set (fun v => .ok v) d a s

/-- `push A` (R132). -/
def execPush (a : Operand) (s : State) : Host.Outcome State Fault Refusal :=
  conclude .push s do
    let v ← s.val a
    return (s.push v).advance 2

/-- `pop D` (R133): the destination is validated before the stack is looked at. -/
def execPop (d : Operand) (s : State) : Host.Outcome State Fault Refusal :=
  conclude .pop s do
    let r ← dst d
    let (v, t) ← s.pop
    return (t.setReg r v).advance 2

end Sys2Proof.Machine
end

