-- ==== Sys2Proof/Machine/InOut.lean ====
section
/-! DEFINITION. `out`, `in`, `halt`, `noop` (spec/47_io_system.md).
-/
namespace Sys2Proof.Machine

/-- `out A` (R201): the low 8 bits; the channel always accepts. -/
def execOut (a : Operand) (s : State) : Host.Outcome State Fault Refusal :=
  conclude .out s do
    let v ← s.val a
    return (s.outPut (lowByte v)).advance 2

/-- `in D` (R202): the destination is validated before the channel is looked at (decision D15); an empty
channel suspends (R116, R203). -/
def execIn (d : Operand) (s : State) : Host.Outcome State Fault Refusal :=
  conclude .inp s do
    let r ← dst d
    match s.inTake with
    | none => return s.suspend
    | some (b, t) => return (t.setReg r (byteToWord b)).advance 2

/-- `halt` (R204). -/
def execHalt (s : State) : Host.Outcome State Fault Refusal := conclude .halt s (.ok s.halt)

/-- `noop` (R205). -/
def execNoop (s : State) : Host.Outcome State Fault Refusal := conclude .noop s (.ok (s.advance 1))

end Sys2Proof.Machine
end

