-- ==== Sys2Proof/Machine/Jump.lean ====
section
/-! DEFINITION. `jmp`, `jt`, `jf` (spec/43_jumps.md). Both operands of a conditional jump are validated
whether or not it is taken (R152, R153).
-/
namespace Sys2Proof.Machine

/-- `jmp A` (R151). -/
def execJmp (a : Operand) (s : State) : Host.Outcome State Fault Refusal :=
  conclude .jmp s do
    let t ← s.val a
    return s.jumpTo t

/-- `jt A B` (R152). -/
def execJt (a b : Operand) (s : State) : Host.Outcome State Fault Refusal :=
  conclude .jt s do
    let c ← s.val a
    let t ← s.val b
    return if condHolds c then s.jumpTo t else s.advance 3

/-- `jf A B` (R153). -/
def execJf (a b : Operand) (s : State) : Host.Outcome State Fault Refusal :=
  conclude .jf s do
    let c ← s.val a
    let t ← s.val b
    return if condHolds c then s.advance 3 else s.jumpTo t

end Sys2Proof.Machine
end

