-- ==== Sys2Proof/Machine/MemAccess.lean ====
section
/-! DEFINITION. `rmem`, `wmem` (spec/45_memory_access.md). The effective address is the resolved value of
the address operand (R180).
-/
namespace Sys2Proof.Machine

/-- The Word `rmem` reads at an address (R181): `OutOfRange` outside memory, `NonWordData` from a slot that
holds no Word. -/
def loadWord (m : Memory) (ea : Word) : Except FaultKind Word :=
  match memRead m ea.toNat with
  | none => .error .outOfRange
  | some w =>
    match slotAsWord w with
    | none => .error .nonWordData
    | some v => .ok v

/-- `rmem D A` (R181). -/
def execRmem (d a : Operand) (s : State) : Host.Outcome State Fault Refusal :=
  unary .rmem (fun ea => loadWord s.mem ea) d a s

/-- The memory after a Word is stored at an address (R182). -/
def storeWord (m : Memory) (ea v : Word) : Except FaultKind Memory :=
  match memWrite m ea.toNat v with
  | none => .error .outOfRange
  | some m' => .ok m'

/-- `wmem A B` (R182): A is the address and B the value, both value operands. -/
def execWmem (a b : Operand) (s : State) : Host.Outcome State Fault Refusal :=
  conclude .wmem s do
    let ea ← s.val a
    let v ← s.val b
    let m ← storeWord s.mem ea v
    return { s with mem := m }.advance 3

end Sys2Proof.Machine
end

