-- ==== Sys2Proof/Machine/Fetch.lean ====
section
/-! DEFINITION. Fetching an instruction (spec/40_execution_cycle.md R111 to R113, spec/20_memory.md R66, R67).
-/
namespace Sys2Proof.Machine

/-- Whether a step is possible (R110): in `Ready`, `Running` and `Suspended`, which a step treats alike (R28). -/
def RunState.steps : RunState → Bool
  | .ready | .running | .suspended => true
  | .halted | .faulted => false

/-- The slots at `a`, `a + 1`, … that exist, at most `n` of them (R66: the addresses are not reduced). -/
def slotsFrom (m : Memory) (a : Nat) : Nat → List Raw
  | 0 => []
  | n + 1 =>
    match memRead m a with
    | none => []
    | some w => w :: slotsFrom m (a + 1) n

/-- The decoder's reading of the memory at `pc`. It is offered the four slots of the longest instruction and
looks only at those its opcode has (R67; log entry 12). -/
def fetchDecode (s : State) : Decoded := decode (slotsFrom s.mem s.pc.toNat 4)

/-- The fault of an instruction that memory cuts short (R113): the slots are fetched and validated one at a
time, so an illegal operand among those present comes before the missing slot (decision D8, log entry 10). -/
def truncatedFault (op : Opcode) (got : List Operand) : FaultKind :=
  if (op.roles.zip got).all (fun (r, o) => r.accepts o) then .outOfRange else .invalidOperandEncoding

end Sys2Proof.Machine
end

