-- ==== Sys2Proof/Machine/Step.lean ====
section
/-! DEFINITION. One step (spec/40_execution_cycle.md R110 to R121).
-/
namespace Sys2Proof.Machine

/-- `step()` (R121). In `Halted` and `Faulted` nothing changes (R110; decision D12, log entry 11). -/
def step (s : State) : Host.Outcome State Fault Refusal :=
  if s.run.steps then
    match fetchDecode s with
    | .instr i => exec i s
    | .noOpcodeSlot => .next (s.takeFault .outOfRange none)
    | .unknownOpcode w => .next (s.takeFault .unknownOpcode (some w))
    | .truncated op got => .next (s.takeFault (truncatedFault op got) (some op.slot))
  else .next s

/-- `s` with an instruction stored where `step` fetches next: four slots at `pc`. Where the longest
instruction would not fit below the top of memory, `pc` is set to the entry point; where `run` is terminal it is
set to `Ready` and the fault record cleared, as `load` does (R221; log entry 13). -/
def State.withFetchWord (s : State) (nbits w : Nat) : State :=
  let p := if s.pc.toNat + 4 ≤ Config.memSlots then s.pc else Config.entryPoint
  { s with
    mem := s.mem.putAll p.toNat (tableSlots nbits w)
    pc := p
    run := if s.run.steps then s.run else .ready
    frec := if s.run.steps then s.frec else none }

end Sys2Proof.Machine
end

