-- ==== Sys2Proof/Machine/Trace.lean ====
section
/-! DEFINITION. The trace hook (spec/48_host_operations.md R230, spec/40_execution_cycle.md R120): an output-only
observation port. It is no state (R13, R20): the record is a function of the state a step starts from.
-/
namespace Sys2Proof.Machine

/-- A decoded operand as the trace shows it (R230): a register index for a destination, the resolved Word for a
value. -/
inductive TraceOperand where
  | dest (r : RegIdx)
  | value (v : Word)
  deriving DecidableEq, Repr

/-- A trace record `(p, w0, ops)` (R230). -/
structure TraceRecord where
  pc : Pc
  opcode : Raw
  operands : List TraceOperand
  deriving DecidableEq, Repr

/-- One operand of a record, read before the instruction's write; none if the operand is illegal in its role. -/
def traceOperand (s : State) : Role → Operand → Option TraceOperand
  | .dest, .reg r => some (.dest r)
  | .dest, _ => none
  | .value, .lit v => some (.value v)
  | .value, .reg r => some (.value (s.reg r))
  | .value, .invalid _ => none

/-- The record a step from `s` emits to a subscribed hook (R120): one if the instruction completes or halts,
none if the step faults, suspends or is no step. -/
def traceRecord (s : State) : Option TraceRecord :=
  if s.run.steps then
    match fetchDecode s, step s with
    | .instr i, .next t =>
      if t.run == .running || t.run == .halted then
        some { pc := s.pc
               opcode := i.opcode.slot
               operands := (i.opcode.roles.zip i.operands).filterMap fun (r, o) => traceOperand s r o }
      else none
    | _, _ => none
  else none

/-- What reaches the host: the record if a hook is subscribed (R120, R230). -/
def traceOutput (subscribed : Bool) (s : State) : Option TraceRecord := if subscribed then traceRecord s else none

end Sys2Proof.Machine
end

