-- ==== Sys2Proof/Machine/HostOps.lean ====
section
/-! DEFINITION. The operations the host performs on a core between steps (spec/48_host_operations.md):
construct, load, step, supply, drain, the read accessors, capture, restore.
-/
namespace Sys2Proof.Machine

/-- `construct()` (R220). -/
def construct : State := State.reset

/-- `load(ws)` (R221): reset, then the image from address 0; a sequence longer than memory is refused. -/
def load (ws : List Raw) : Host.Outcome State Fault Refusal :=
  if ws.length ≤ Config.memSlots then .next { State.reset with mem := Memory.ofImage ws }
  else .refused (.imageTooLong ws.length)

/-- The words of an image (R51, R221): little-endian 16-bit; none where the number of bytes is odd. -/
def imageWords : List Byte → Option (List Raw)
  | [] => some []
  | [_] => none
  | lo :: hi :: rest => (imageWords rest).map fun ws => (hi ++ lo) :: ws

/-- `load` of an image given in bytes (R221, R234). -/
def loadImage (bs : List Byte) : Host.Outcome State Fault Refusal :=
  match imageWords bs with
  | none => .refused (.imageOddLength bs.length)
  | some ws => load ws

/-- `supply(bs)` (R224): appended to the input queue in any run state; a starved core becomes `Running`. A
value outside 0..255 is refused (R234). -/
def supply (bs : List Nat) (s : State) : Host.Outcome State Fault Refusal :=
  if bs.all (fun b => decide (b < 256)) then
    .next { s with
      inq := s.inq ++ bs.map (BitVec.ofNat 8)
      run := if s.run == .suspended && !bs.isEmpty then .running else s.run }
  else .refused .supplyNotByte

/-- `drain()` from a read position the host keeps (R225): the bytes not yet read; the core is unchanged. -/
def drain (s : State) (position : Nat) : List Byte := s.outlog.drop position

/-- The read accessors (R226), each a copy of a component. -/
def readSlot (s : State) (a : Nat) : Option Raw := memRead s.mem a
/-- A register, by accessor (R226). -/
def readReg (s : State) (r : RegIdx) : Word := s.reg r
/-- The whole stack, by accessor (R226), oldest element first as the spec prints it. -/
def readStack (s : State) : List Word := s.stack.reverse
/-- The program counter, by accessor (R226). -/
def readPc (s : State) : Pc := s.pc
/-- The run state, by accessor (R226). -/
def readRun (s : State) : RunState := s.run
/-- The fault record, by accessor (R226). -/
def readFrec (s : State) : Option FaultRecord := s.frec

/-- A snapshot `(x', pc', stack', mem')` (R35): a value the host holds. -/
structure Snapshot where
  regs : Vector Word 8
  pc : Pc
  stack : List Word
  mem : Memory
  deriving DecidableEq, Repr

/-- `capture()` (R227): the core is unchanged. -/
def capture (s : State) : Snapshot where
  regs := s.regs
  pc := s.pc
  stack := s.stack
  mem := s.mem

/-- What a snapshot must satisfy to be restored (R228, R34; decision D25). -/
def Snapshot.wf (c : Snapshot) : Bool := decide (c.pc.toNat ≤ Config.pcMax) && c.mem.wf

/-- `restore(s)` (R228): the four components replaced at once, `run` to `Ready`, the fault record cleared,
the channels kept; a value that is no snapshot is refused (R234). -/
def restore (c : Snapshot) (s : State) : Host.Outcome State Fault Refusal :=
  if c.wf then
    .next { s with regs := c.regs, pc := c.pc, stack := c.stack, mem := c.mem, run := .ready, frec := none }
  else .refused .snapshotIllFormed

/-- A clone (R231): `construct` followed by `restore(capture())` of the original. -/
def clone (s : State) : Host.Outcome State Fault Refusal := restore (capture s) construct

/-- The result a step reports (R118). -/
inductive StepReport where
  | continued
  | halted
  | suspended
  | faulted (kind : FaultKind) (pc : Pc) (opcode : Option Raw)
  deriving DecidableEq, Repr

/-- The report of a step that left this state (R110, R118); a step leaves no `Ready` state. -/
def report (s : State) : Option StepReport :=
  match s.run, s.frec with
  | .running, _ => some .continued
  | .halted, _ => some .halted
  | .suspended, _ => some .suspended
  | .faulted, some r => some (.faulted r.kind r.fpc r.fop)
  | .faulted, none => none
  | .ready, _ => none

/-- The numeric fault codes (R250; decision D10): labels no rule reads. -/
def FaultKind.code : FaultKind → Nat
  | .outOfRange => 1
  | .invalidOperandEncoding => 2
  | .invalidRegister => 3
  | .stackUnderflow => 4
  | .divisionByZero => 5
  | .unknownOpcode => 6
  | .nonWordData => 7

/-- The host's moves that can change a core (R223). Drain, the accessors, capture and the trace subscription
change none, and there is no other move (R233). -/
inductive HostAction where
  | construct
  | load (ws : List Raw)
  | loadImage (bs : List Byte)
  | step
  | supply (bs : List Nat)
  | restore (c : Snapshot)
  deriving DecidableEq, Repr

/-- What each move does to a core (R223). -/
def HostAction.act : HostAction → State → Host.Outcome State Fault Refusal
  | .construct, _ => .next Machine.construct
  | .load ws, _ => Machine.load ws
  | .loadImage bs, _ => Machine.loadImage bs
  | .step, s => Machine.step s
  | .supply bs, s => Machine.supply bs s
  | .restore c, s => Machine.restore c s

end Sys2Proof.Machine
end

