-- ==== Sys2Proof/Machine/Run.lean ====
section
/-! DEFINITION. Runs (spec/48_host_operations.md R232, R233): a launch state, and a host behaviour that says what bytes
are supplied and when. A behaviour is the list of the host's moves in order; where a supply stands among the steps is when
the bytes arrive.
-/
namespace Sys2Proof.Machine

/-- The host's moves one after another; the first refusal ends them. A refused move has no effect on the core (R234), so
a behaviour with such a move says no more than the same behaviour without it. -/
def perform : List HostAction → State → Host.Outcome State Fault Refusal
  | [], s => .next s
  | x :: xs, s =>
    match x.act s with
    | .next t => perform xs t
    | .fault f => .fault f
    | .refused r => .refused r

/-- The moves of a run (R232, R233): a step, or a supply of bytes. `construct`, `load` and `restore` begin another run, and
capture, drain, the accessors and the trace change no core, so a behaviour need not list them. -/
def HostAction.inRun : HostAction → Bool
  | .step => true
  | .supply bs => bs.all fun b => decide (b < 256)
  | .construct | .load _ | .loadImage _ | .restore _ => false

/-- The bytes a behaviour supplies, in order, whenever it does. -/
def supplied : List HostAction → List Nat
  | [] => []
  | .supply bs :: xs => bs ++ supplied xs
  | .step :: xs | .construct :: xs | .load _ :: xs | .loadImage _ :: xs | .restore _ :: xs => supplied xs

/-- A launch state (R232): a loaded core; `load` leaves it `Ready`. -/
def Launch (s : State) : Prop := ∃ ws, load ws = .next s

/-- A run from `s` under a host behaviour has reached `t` (R232). A claim about runs quantifies over the behaviour: which
bytes are supplied and when, how often the core is stepped, and whether a starved `in` ever gets its byte (R233). It holds
for runs without `load` and `restore` in the middle, as R233 asks; a claim about those too quantifies over `perform`. -/
def Run (s : State) (xs : List HostAction) (t : State) : Prop := xs.all HostAction.inRun = true ∧ perform xs s = .next t

/-- The observable result of a run (R232): the output log, the final run state and fault record, and what the accessors
read. -/
structure RunResult where
  outlog : List Byte
  run : RunState
  frec : Option FaultRecord
  visible : Snapshot
  deriving DecidableEq, Repr

/-- The observable result in a state. -/
def runResult (s : State) : RunResult where
  outlog := s.outlog
  run := s.run
  frec := s.frec
  visible := capture s

end Sys2Proof.Machine
end

