-- ==== Sys2Proof/Safety.lean ====
section
/-! DEFINITION. What counts as a good state, a finished run and a wait, in the terms claims use (spec/10_state.md R34,
spec/48_host_operations.md R232, spec/60_exceptions.md R265).
-/
namespace Sys2Proof.Machine

/-- The fault record is there exactly in `Faulted` (R34), and then names the instruction at `pc` (R29, R115; decision D7). -/
def State.frecOk (s : State) : Bool :=
  match s.run, s.frec with
  | .faulted, some r => r.fpc == s.pc
  | .faulted, none => false
  | .ready, f | .running, f | .suspended, f | .halted, f => f.isNone

/-- The invariants of R34 that the types do not already say: `pc` is in 0..32768, and there is a fault record exactly in
`Faulted`. Two clauses are not R34's: the canonical form of memory is the model's own (log entry 4), and that the record
names `pc` rests on R29 and decision D7 (log entry 5). -/
abbrev Inv (s : State) : Prop := s.pc.toNat ≤ Config.pcMax ∧ s.mem.wf = true ∧ s.frecOk = true

/-- A run is over (R232). -/
def runOver (s : State) : Bool := !s.run.steps

/-- The core waits for input (R232, R265): the one wait of the machine (R203). -/
def waiting (s : State) : Bool := s.run == .suspended && s.inq.isEmpty

/-- `n` steps from `s`, with no move of the host between them, end in `t`. It is the run whose behaviour is `n` steps;
`Run` is the run of R232 with the host's supplies. -/
def RunsTo (s : State) (n : Nat) (t : State) : Prop := Host.Core.run Sys2Proof.core n s = .next t

/-- The core is hung (R232, R265): its program goes on for ever without a starved `in`, so every step, however many there
are, completes an instruction. The core has no watchdog and does not detect it. -/
def hung (s : State) : Prop := ∀ n t, RunsTo s (n + 1) t → t.run = .running

end Sys2Proof.Machine
end

