-- ==== Sys2Proof/Certificates/Slice0/Obligations.lean ====
section
/-! DEFINITION. The statements for the provers. Each formalises a rule of spec/ named in its docstring. Clauses that
rest on a numbered decision D<n> of spec/92_eei_decisions.md, the spec's own choice, are named as such.
-/
namespace Sys2Proof.Claims

open Sys2Proof.Machine

/-- The Word a value operand denotes (R83), as a relation: none for an invalid slot. -/
def Resolves (s : State) : Operand → Word → Prop
  | .lit v, w => w = v
  | .reg r, w => w = s.regs[r]
  | .invalid _, _ => False

/-- Memory holds these slots from address `a` up. -/
def SlotsAt (m : Memory) (a : Nat) (ws : List Raw) : Prop :=
  ∀ n w, ws[n]? = some w → memRead m (a + n) = some w

/-- The operand slots that are legal in a role (R83, R84), by number. -/
def LegalSlot : Role → Raw → Prop
  | .dest, w => 32768 ≤ w.toNat ∧ w.toNat ≤ 32775
  | .value, w => w.toNat ≤ 32775

/-- The outcome is the fault `k` of an instruction begun in `s`: `Faulted`, that kind recorded, and no effect of the
instruction kept (R8 `raise`, R260). -/
def EndsInFault (k : FaultKind) (s : State) (o : Host.Outcome State Fault Refusal) : Prop :=
  ∃ t r, o = .next t ∧ t.run = .faulted ∧ t.frec = some r ∧ r.kind = k ∧ t.regs = s.regs ∧
    t.stack = s.stack ∧ t.mem = s.mem ∧ t.inq = s.inq ∧ t.outlog = s.outlog

/-- The decode-phase faults of an opcode, as each instruction's rule lists them (R130): `InvalidOperandEncoding` where
all its slots are there and one is illegal; `OutOfRange` where memory ends before its last slot. (Where both
hold the order is decision D8: `OperandPhaseFollowsPseudocode` states it.) -/
def DecodePhase (n : Nat) (roles : List Role) : Prop :=
  (∀ (s : State) (ws : List Raw), s.run.steps = true →
    memRead s.mem s.pc.toNat = some (BitVec.ofNat 16 n) → ws.length = roles.length →
    SlotsAt s.mem (s.pc.toNat + 1) ws → (∃ x ∈ roles.zip ws, ¬ LegalSlot x.1 x.2) →
    EndsInFault .invalidOperandEncoding s (step s)) ∧
  (∀ (s : State) (ws : List Raw), s.run.steps = true →
    memRead s.mem s.pc.toNat = some (BitVec.ofNat 16 n) → ws.length < roles.length →
    s.pc.toNat + 1 + ws.length = 32768 → SlotsAt s.mem (s.pc.toNat + 1) ws →
    (∀ x ∈ roles.zip ws, LegalSlot x.1 x.2) → EndsInFault .outOfRange s (step s))

/-- R113's loop over the operand slots, transcribed from the spec's pseudocode on raw numbers: the first check that
fails, slot by slot. -/
def firstOperandFault (m : Memory) : List Role → Nat → Option FaultKind
  | [], _ => none
  | role :: rest, a =>
    match memRead m a with
    | none => some .outOfRange
    | some w =>
      if (role = .dest ∧ (w.toNat < 32768 ∨ 32775 < w.toNat)) ∨ (role = .value ∧ 32775 < w.toNat) then
        some .invalidOperandEncoding
      else firstOperandFault m rest (a + 1)

/-- R86's operand roles by opcode number, transcribed from the spec. -/
def roleTable : List (List Role) :=
  [[], [.dest, .value], [.value], [.dest], [.dest, .value, .value], [.dest, .value, .value], [.value],
    [.value, .value], [.value, .value], [.dest, .value, .value], [.dest, .value, .value], [.dest, .value, .value],
    [.dest, .value, .value], [.dest, .value, .value], [.dest, .value], [.dest, .value], [.value, .value],
    [.value], [], [.value], [.dest], []]

/-- The operand slots before slot `n` are in memory and legal in their roles. -/
def LegalBefore (m : Memory) (a : Nat) (roles : List Role) (n : Nat) : Prop :=
  ∀ k < n, ∃ role w, roles[k]? = some role ∧ memRead m (a + k) = some w ∧ LegalSlot role w

/-- The cause each fault kind has when a step from `s` records it (R250 to R257). -/
def FaultAllowed (s : State) (r : FaultRecord) : Prop :=
  match r.kind with
  | .outOfRange =>
    32768 ≤ s.pc.toNat ∨
      (∃ (op : Opcode) (n : Nat), memRead s.mem s.pc.toNat = some op.slot ∧ n < op.arity ∧
        32768 ≤ s.pc.toNat + 1 + n ∧ LegalBefore s.mem (s.pc.toNat + 1) op.roles n) ∨
      (∃ a : Operand, a.legalValue = true ∧ SlotsAt s.mem s.pc.toNat (encode (.call a)) ∧ s.pc.toNat = 32766)
  | .invalidOperandEncoding =>
    ∃ (op : Opcode) (n : Nat) (role : Role) (w : Raw), memRead s.mem s.pc.toNat = some op.slot ∧
      op.roles[n]? = some role ∧ memRead s.mem (s.pc.toNat + 1 + n) = some w ∧ ¬ LegalSlot role w ∧
      LegalBefore s.mem (s.pc.toNat + 1) op.roles n
  | .invalidRegister => False
  | .stackUnderflow =>
    s.stack = [] ∧ (SlotsAt s.mem s.pc.toNat (encode .ret) ∨
      ∃ d : RegIdx, SlotsAt s.mem s.pc.toNat (encode (.pop (.reg d))))
  | .divisionByZero =>
    ∃ (d : RegIdx) (a b : Operand), a.legalValue = true ∧ SlotsAt s.mem s.pc.toNat (encode (.mod (.reg d) a b)) ∧
      Resolves s b 0
  | .unknownOpcode => ∃ w, memRead s.mem s.pc.toNat = some w ∧ 21 < w.toNat
  | .nonWordData =>
    ∃ (d : RegIdx) (a : Operand) (ea : Word) (w : Raw), SlotsAt s.mem s.pc.toNat (encode (.rmem (.reg d) a)) ∧
      Resolves s a ea ∧ memRead s.mem ea.toNat = some w ∧ 32768 ≤ w.toNat

end Sys2Proof.Claims

open Sys2Proof Sys2Proof.Machine Sys2Proof.Claims

/-! ### The instructions: encoding, decode-phase faults, operation and frame

The opcode numbers are those of R85's table (decision D1, log entry 1). -/

/-- R131 (`set`). The next state is `s` but for the destination, `pc` and `run`. -/
def Obligations.SetCopiesValueToRegister : Prop :=
  (∀ w1 w2 rest, decode (1 :: w1 :: w2 :: rest) = .instr (.set (classify w1) (classify w2))) ∧
  DecodePhase 1 [.dest, .value] ∧
  ∀ (s : State) (r : RegIdx) (a : Operand) (v : Word), Resolves s a v →
    exec (.set (.reg r) a) s = .next { s with regs := s.regs.set r v, pc := s.pc + 3, run := .running }

/-- R132 (`push`). -/
def Obligations.PushPutsValueOnStack : Prop :=
  (∀ w1 rest, decode (2 :: w1 :: rest) = .instr (.push (classify w1))) ∧
  DecodePhase 2 [.value] ∧
  ∀ (s : State) (a : Operand) (v : Word), Resolves s a v →
    exec (.push a) s = .next { s with stack := v :: s.stack, pc := s.pc + 2, run := .running }

/-- R133 (`pop`): the top of the stack, or `StackUnderflow`. -/
def Obligations.PopTakesTopOrUnderflows : Prop :=
  (∀ w1 rest, decode (3 :: w1 :: rest) = .instr (.pop (classify w1))) ∧
  DecodePhase 3 [.dest] ∧
  (∀ (s : State) (r : RegIdx) (v : Word) (rest : List Word), s.stack = v :: rest →
    exec (.pop (.reg r)) s =
      .next { s with regs := s.regs.set r v, stack := rest, pc := s.pc + 2, run := .running }) ∧
  (∀ (s : State) (r : RegIdx), s.stack = [] → EndsInFault .stackUnderflow s (exec (.pop (.reg r)) s))

/-- R140 (`eq`). -/
def Obligations.EqWritesOneExactlyWhenEqual : Prop :=
  (∀ w1 w2 w3 rest, decode (4 :: w1 :: w2 :: w3 :: rest) = .instr (.eq (classify w1) (classify w2) (classify w3))) ∧
  DecodePhase 4 [.dest, .value, .value] ∧
  ∀ (s : State) (r : RegIdx) (a b : Operand) (va vb : Word), Resolves s a va → Resolves s b vb →
    exec (.eq (.reg r) a b) s =
      .next { s with regs := s.regs.set r (if va.toNat = vb.toNat then 1 else 0), pc := s.pc + 4, run := .running }

/-- R141 (`gt`): unsigned. -/
def Obligations.GtWritesOneExactlyWhenGreater : Prop :=
  (∀ w1 w2 w3 rest, decode (5 :: w1 :: w2 :: w3 :: rest) = .instr (.gt (classify w1) (classify w2) (classify w3))) ∧
  DecodePhase 5 [.dest, .value, .value] ∧
  ∀ (s : State) (r : RegIdx) (a b : Operand) (va vb : Word), Resolves s a va → Resolves s b vb →
    exec (.gt (.reg r) a b) s =
      .next { s with regs := s.regs.set r (if va.toNat > vb.toNat then 1 else 0), pc := s.pc + 4, run := .running }

/-- R151 (`jmp`). -/
def Obligations.JmpGoesToTarget : Prop :=
  (∀ w1 rest, decode (6 :: w1 :: rest) = .instr (.jmp (classify w1))) ∧
  DecodePhase 6 [.value] ∧
  ∀ (s : State) (a : Operand) (t : Word), Resolves s a t →
    exec (.jmp a) s = .next { s with pc := BitVec.ofNat 16 t.toNat, run := .running }

/-- R152 (`jt`). -/
def Obligations.JtJumpsExactlyWhenNonzero : Prop :=
  (∀ w1 w2 rest, decode (7 :: w1 :: w2 :: rest) = .instr (.jt (classify w1) (classify w2))) ∧
  DecodePhase 7 [.value, .value] ∧
  ∀ (s : State) (a b : Operand) (c t : Word), Resolves s a c → Resolves s b t →
    exec (.jt a b) s =
      .next { s with pc := if c.toNat ≠ 0 then BitVec.ofNat 16 t.toNat else s.pc + 3, run := .running }

/-- R153 (`jf`). -/
def Obligations.JfJumpsExactlyWhenZero : Prop :=
  (∀ w1 w2 rest, decode (8 :: w1 :: w2 :: rest) = .instr (.jf (classify w1) (classify w2))) ∧
  DecodePhase 8 [.value, .value] ∧
  ∀ (s : State) (a b : Operand) (c t : Word), Resolves s a c → Resolves s b t →
    exec (.jf a b) s =
      .next { s with pc := if c.toNat = 0 then BitVec.ofNat 16 t.toNat else s.pc + 3, run := .running }

/-- R161 (`add`). -/
def Obligations.AddWritesSumModulo32768 : Prop :=
  (∀ w1 w2 w3 rest, decode (9 :: w1 :: w2 :: w3 :: rest) = .instr (.add (classify w1) (classify w2) (classify w3))) ∧
  DecodePhase 9 [.dest, .value, .value] ∧
  ∀ (s : State) (r : RegIdx) (a b : Operand) (va vb v : Word), Resolves s a va → Resolves s b vb →
    v.toNat = (va.toNat + vb.toNat) % 32768 →
    exec (.add (.reg r) a b) s = .next { s with regs := s.regs.set r v, pc := s.pc + 4, run := .running }

/-- R162 (`mult`). -/
def Obligations.MultWritesProductModulo32768 : Prop :=
  (∀ w1 w2 w3 rest, decode (10 :: w1 :: w2 :: w3 :: rest) = .instr (.mult (classify w1) (classify w2) (classify w3))) ∧
  DecodePhase 10 [.dest, .value, .value] ∧
  ∀ (s : State) (r : RegIdx) (a b : Operand) (va vb v : Word), Resolves s a va → Resolves s b vb →
    v.toNat = (va.toNat * vb.toNat) % 32768 →
    exec (.mult (.reg r) a b) s = .next { s with regs := s.regs.set r v, pc := s.pc + 4, run := .running }

/-- R163 (`mod`): the remainder, or `DivisionByZero`. -/
def Obligations.ModWritesRemainderOrDividesByZero : Prop :=
  (∀ w1 w2 w3 rest, decode (11 :: w1 :: w2 :: w3 :: rest) = .instr (.mod (classify w1) (classify w2) (classify w3))) ∧
  DecodePhase 11 [.dest, .value, .value] ∧
  ∀ (s : State) (r : RegIdx) (a b : Operand) (va vb : Word), Resolves s a va → Resolves s b vb →
    (∀ v : Word, vb.toNat ≠ 0 → v.toNat = va.toNat % vb.toNat →
      exec (.mod (.reg r) a b) s = .next { s with regs := s.regs.set r v, pc := s.pc + 4, run := .running }) ∧
    (vb.toNat = 0 → EndsInFault .divisionByZero s (exec (.mod (.reg r) a b) s))

/-- R164 (`and`), bit by bit. -/
def Obligations.AndWritesBitwiseConjunction : Prop :=
  (∀ w1 w2 w3 rest, decode (12 :: w1 :: w2 :: w3 :: rest) = .instr (.and (classify w1) (classify w2) (classify w3))) ∧
  DecodePhase 12 [.dest, .value, .value] ∧
  ∀ (s : State) (r : RegIdx) (a b : Operand) (va vb v : Word), Resolves s a va → Resolves s b vb →
    (∀ n < 15, v.toNat.testBit n = (va.toNat.testBit n && vb.toNat.testBit n)) →
    exec (.and (.reg r) a b) s = .next { s with regs := s.regs.set r v, pc := s.pc + 4, run := .running }

/-- R165 (`or`), bit by bit. -/
def Obligations.OrWritesBitwiseDisjunction : Prop :=
  (∀ w1 w2 w3 rest, decode (13 :: w1 :: w2 :: w3 :: rest) = .instr (.or (classify w1) (classify w2) (classify w3))) ∧
  DecodePhase 13 [.dest, .value, .value] ∧
  ∀ (s : State) (r : RegIdx) (a b : Operand) (va vb v : Word), Resolves s a va → Resolves s b vb →
    (∀ n < 15, v.toNat.testBit n = (va.toNat.testBit n || vb.toNat.testBit n)) →
    exec (.or (.reg r) a b) s = .next { s with regs := s.regs.set r v, pc := s.pc + 4, run := .running }

/-- R166 (`not`). -/
def Obligations.NotWritesFifteenBitComplement : Prop :=
  (∀ w1 w2 rest, decode (14 :: w1 :: w2 :: rest) = .instr (.not (classify w1) (classify w2))) ∧
  DecodePhase 14 [.dest, .value] ∧
  ∀ (s : State) (r : RegIdx) (a : Operand) (va v : Word), Resolves s a va →
    v.toNat = 32767 - va.toNat →
    exec (.not (.reg r) a) s = .next { s with regs := s.regs.set r v, pc := s.pc + 3, run := .running }

/-- R181 (`rmem`). The clause on slots above 32767 is decision D9 (log entry 9). -/
def Obligations.RmemReadsWordOrFaults : Prop :=
  (∀ w1 w2 rest, decode (15 :: w1 :: w2 :: rest) = .instr (.rmem (classify w1) (classify w2))) ∧
  DecodePhase 15 [.dest, .value] ∧
  ∀ (s : State) (r : RegIdx) (a : Operand) (ea : Word) (w : Raw), Resolves s a ea →
    memRead s.mem ea.toNat = some w →
    (∀ v : Word, w.toNat ≤ 32767 → v.toNat = w.toNat →
      exec (.rmem (.reg r) a) s = .next { s with regs := s.regs.set r v, pc := s.pc + 3, run := .running }) ∧
    (32768 ≤ w.toNat → EndsInFault .nonWordData s (exec (.rmem (.reg r) a) s))

/-- R182 (`wmem`). The slot written is the one at the resolved first operand; every other slot reads as before. -/
def Obligations.WmemStoresValueAtAddress : Prop :=
  (∀ w1 w2 rest, decode (16 :: w1 :: w2 :: rest) = .instr (.wmem (classify w1) (classify w2))) ∧
  DecodePhase 16 [.value, .value] ∧
  ∀ (s : State) (a b : Operand) (ea v : Word), Resolves s a ea → Resolves s b v →
    ∃ m w, exec (.wmem a b) s = .next { s with mem := m, pc := s.pc + 3, run := .running } ∧
      memRead m ea.toNat = some w ∧ w.toNat = v.toNat ∧
      ∀ n, n ≠ ea.toNat → memRead m n = memRead s.mem n

/-- R191 (`call`). The clause on a return address that is no Word is decision D5 (log entry 7). -/
def Obligations.CallPushesReturnAddressAndJumps : Prop :=
  (∀ w1 rest, decode (17 :: w1 :: rest) = .instr (.call (classify w1))) ∧
  DecodePhase 17 [.value] ∧
  ∀ (s : State) (a : Operand) (t : Word), Resolves s a t →
    (∀ ra : Word, ra.toNat = s.pc.toNat + 2 →
      exec (.call a) s =
        .next { s with stack := ra :: s.stack, pc := BitVec.ofNat 16 t.toNat, run := .running }) ∧
    (32768 ≤ s.pc.toNat + 2 → EndsInFault .outOfRange s (exec (.call a) s))

/-- R192 (`ret`): the top of the stack, or `StackUnderflow` (conflict C1). -/
def Obligations.RetPopsAddressOrUnderflows : Prop :=
  (∀ rest, decode (18 :: rest) = .instr .ret) ∧
  (∀ (s : State) (t : Word) (rest : List Word), s.stack = t :: rest →
    exec .ret s = .next { s with stack := rest, pc := BitVec.ofNat 16 t.toNat, run := .running }) ∧
  (∀ s : State, s.stack = [] → EndsInFault .stackUnderflow s (exec .ret s))

/-- R201 (`out`). -/
def Obligations.OutAppendsLowByte : Prop :=
  (∀ w1 rest, decode (19 :: w1 :: rest) = .instr (.out (classify w1))) ∧
  DecodePhase 19 [.value] ∧
  ∀ (s : State) (a : Operand) (v : Word) (b : Byte), Resolves s a v → b.toNat = v.toNat % 256 →
    exec (.out a) s = .next { s with outlog := s.outlog ++ [b], pc := s.pc + 2, run := .running }

/-- R202 (`in`). The order of the checks is decision D15 and the range of the byte decision D26. -/
def Obligations.InTakesOldestByteOrSuspends : Prop :=
  (∀ w1 rest, decode (20 :: w1 :: rest) = .instr (.inp (classify w1))) ∧
  DecodePhase 20 [.dest] ∧
  (∀ (s : State) (r : RegIdx) (b : Byte) (rest : List Byte) (v : Word), s.inq = b :: rest → v.toNat = b.toNat →
    exec (.inp (.reg r)) s =
      .next { s with regs := s.regs.set r v, inq := rest, pc := s.pc + 2, run := .running }) ∧
  (∀ (s : State) (r : RegIdx), s.inq = [] → exec (.inp (.reg r)) s = .next { s with run := .suspended })

/-- R204 (`halt`). That `pc` stays is decision D6 (log entry 8). -/
def Obligations.HaltChangesOnlyRunState : Prop :=
  (∀ rest, decode (0 :: rest) = .instr .halt) ∧ ∀ s : State, exec .halt s = .next { s with run := .halted }

/-- R205 (`noop`). -/
def Obligations.NoopChangesOnlyProgramCounter : Prop :=
  (∀ rest, decode (21 :: rest) = .instr .noop) ∧
  ∀ s : State, exec .noop s = .next { s with pc := s.pc + 1, run := .running }

/-! ### The execution cycle -/

/-- A step runs the decoded instruction: where memory holds the slots of a well-formed instruction at `pc`, `step` is
`exec` of it; nothing is added around it (R110 to R114). -/
def Obligations.StepRunsDecodedInstruction : Prop :=
  ∀ (s : State) (i : Instr), s.run.steps = true → i.wellFormed = true →
    SlotsAt s.mem s.pc.toNat (encode i) → step s = exec i s

/-- R111: the opcode fetch outside memory. -/
def Obligations.OpcodeFetchAtTopFaults : Prop :=
  ∀ s : State, s.run.steps = true → s.pc.toNat = 32768 →
    EndsInFault .outOfRange s (step s) ∧
    ∃ t, step s = .next t ∧ t.frec = some { kind := .outOfRange, fpc := 32768, fop := none }

/-- R112: recognition of the opcode. -/
def Obligations.OpcodeRecognisedOrUnknown : Prop :=
  ∀ w : Raw,
    (21 < w.toNat → ∀ s : State, s.run.steps = true → memRead s.mem s.pc.toNat = some w →
      EndsInFault .unknownOpcode s (step s) ∧
      ∃ t, step s = .next t ∧ t.frec = some { kind := .unknownOpcode, fpc := s.pc, fop := some w }) ∧
    (w.toNat ≤ 21 → ∃ op, Opcode.ofSlot w = some op ∧ op.number = w.toNat ∧ roleTable[w.toNat]? = some op.roles)

/-- R113 and R258: the operand phase is the spec's loop. The order of the checks is decision D8 (log entry 10), the fault
record decision D11, the unchanged `pc` decision D7 (log entry 5). -/
def Obligations.OperandPhaseFollowsPseudocode : Prop :=
  ∀ (s : State) (op : Opcode), s.run.steps = true → memRead s.mem s.pc.toNat = some op.slot →
    (∀ k, firstOperandFault s.mem op.roles (s.pc.toNat + 1) = some k →
      step s = .next { s with
        run := .faulted, frec := some { kind := k, fpc := s.pc, fop := some op.slot } }) ∧
    (firstOperandFault s.mem op.roles (s.pc.toNat + 1) = none →
      ∃ i : Instr, i.opcode = op ∧ i.wellFormed = true ∧ SlotsAt s.mem s.pc.toNat (encode i) ∧ step s = exec i s)

/-- R252: an instruction with an illegal operand has no effect but the fault, in every state. -/
def Obligations.IllegalOperandHasNoEffect : Prop :=
  ∀ (i : Instr) (s : State), i.wellFormed = false → EndsInFault .invalidOperandEncoding s (exec i s)

/-- R115, R259, R29: a fault changes `run` and `frec` and nothing else; the record names the instruction at `pc` and the
opcode slot as fetched. (`pc` unchanged is decision D7, log entry 5; the record's contents are decision D11.) -/
def Obligations.FaultChangesOnlyRunAndRecord : Prop :=
  ∀ s t : State, s.run.steps = true → step s = .next t → t.run = .faulted →
    ∃ k, t = { s with
      run := .faulted, frec := some { kind := k, fpc := s.pc, fop := memRead s.mem s.pc.toNat } }

/-- R250 to R257: a step records a fault kind only from the cause its rule gives; `InvalidRegister` is never recorded.
(`NonWordData` is decision D9, log entry 9; `OutOfRange` of a call D5, log entry 7; the first illegal slot D8, log entry
10.) -/
def Obligations.FaultKindsComeFromTheirCauses : Prop :=
  ∀ (s t : State) (r : FaultRecord), s.run.steps = true → step s = .next t → t.run = .faulted →
    t.frec = some r → FaultAllowed s r

/-- R116: a step suspends exactly on a starved `in`, and then changes only `run`. -/
def Obligations.SuspensionIsAStarvedIn : Prop :=
  ∀ s t : State, s.run.steps = true → step s = .next t →
    (t.run = .suspended ↔
      s.inq = [] ∧ ∃ r : RegIdx, SlotsAt s.mem s.pc.toNat (encode (.inp (.reg r)))) ∧
    (t.run = .suspended → t = { s with run := .suspended })

/-- R203, R116, R224, R202: a core a step left suspended waits; further steps change nothing, and one supplied byte lets the
`in` at `pc` complete into the register its destination slot names. (The supply discipline is decision D14, log entry 14;
the byte's range is D26, log entry 20.) -/
def Obligations.SuspendedCoreWaitsForSupply : Prop :=
  ∀ s t : State, s.run.steps = true → step s = .next t → t.run = .suspended →
    waiting t = true ∧ step t = .next t ∧
    ∀ (b : Nat) (bs : List Nat), (∀ x ∈ b :: bs, x < 256) →
      ∃ u v, supply (b :: bs) t = .next u ∧ u.run = .running ∧ step u = .next v ∧ v.run = .running ∧
        v.pc = t.pc + 2 ∧ v.inq = bs.map (BitVec.ofNat 8) ∧ v.mem = t.mem ∧ v.stack = t.stack ∧
        v.outlog = t.outlog ∧ ∃ (r : RegIdx) (w : Word), SlotsAt t.mem t.pc.toNat (encode (.inp (.reg r))) ∧
          w.toNat = b ∧ v.regs = t.regs.set r w

/-- R117, R204: a step halts exactly on a `halt`. (`pc` unchanged is decision D6, log entry 8.) -/
def Obligations.HaltingIsAHalt : Prop :=
  ∀ s t : State, s.run.steps = true → step s = .next t →
    (t.run = .halted ↔ memRead s.mem s.pc.toNat = some 0) ∧ (t.run = .halted → t = { s with run := .halted })

/-- R110, R118: every step answers a next state and a report; a terminal state is left as it is (decision D12, log
entry 11). -/
def Obligations.StepAlwaysReports : Prop :=
  ∀ s : State,
    (runOver s = true → step s = .next s) ∧
    (runOver s = false → ∃ t, step s = .next t ∧
      (report t = some .continued ∨ report t = some .halted ∨ report t = some .suspended ∨
        ∃ r, t.frec = some r ∧ report t = some (.faulted r.kind r.fpc r.fop)))

/-- R119, R300, R232 (R119 the spec marks derived). First, under one host behaviour, what a run does depends on the
program-visible state and the input queue alone: not on the output log, the fault record or which of the three
non-terminal run states it starts in (that these are alike to a step is decision D22, log entry 28). Second, two runs from
one state that are supplied the same bytes and are both over end in the same state, whenever the bytes came and however
often the core was stepped. -/
def Obligations.RunsDependOnlyOnProgramStateAndInput : Prop :=
  (∀ (xs : List HostAction) (s s' t : State), s.run.steps = true → s'.run.steps = true → s'.regs = s.regs →
    s'.pc = s.pc → s'.stack = s.stack → s'.mem = s.mem → s'.inq = s.inq → Run s xs t →
    ∃ (t' : State) (bs : List Byte), Run s' xs t' ∧ t.outlog = s.outlog ++ bs ∧ t'.outlog = s'.outlog ++ bs ∧
      t'.regs = t.regs ∧ t'.pc = t.pc ∧ t'.stack = t.stack ∧ t'.mem = t.mem ∧ t'.inq = t.inq ∧
      (HostAction.step ∈ xs → t'.run = t.run) ∧ (t.run = .faulted → t'.frec = t.frec)) ∧
  (∀ (s t u : State) (xs ys : List HostAction), Run s xs t → Run s ys u → supplied xs = supplied ys →
    runOver t = true → runOver u = true → t = u)

/-! ### Invariants and whole-machine rules -/

/-- R34 (the spec marks it derived): every step keeps the invariants, from every state that has them. Of `Inv`'s clauses the
canonical form of memory is the model's own (log entry 4), and that the record names `pc` is decision D7 (log entry 5). -/
def Obligations.StepKeepsInvariants : Prop := ∀ s t : State, Inv s → step s = .next t → Inv t

/-- R34, R37: reset has the invariants, the model's own canonical form of memory (log entry 4) among them. -/
def Obligations.ResetHasInvariants : Prop := Inv State.reset

/-- R34 (the spec marks it derived), R223, R232: every move of the host keeps the invariants, from every state that has them,
and so every state a run from a launch state reaches has them. Of `Inv`'s clauses the canonical form of memory is the
model's own (log entry 4), and that the record names `pc` is decision D7 (log entry 5). -/
def Obligations.HostMovesKeepInvariants : Prop :=
  (∀ (x : HostAction) (s t : State), Inv s → x.act s = .next t → Inv t) ∧
  ∀ (s t : State) (xs : List HostAction), Launch s → Run s xs t → Inv t

/-- R37, R291, R292: the reset values (all but memory and the empty stack are decision D3, log entry 2), and an unloaded core
halts at once, where only `run` changes (`pc` unchanged is decision D6, log entry 8). -/
def Obligations.ResetStateIsZeroAndHaltsUnloaded : Prop :=
  (∀ r : RegIdx, State.reset.regs[r] = 0) ∧ State.reset.pc = 0 ∧ State.reset.stack = [] ∧
  (∀ n < 32768, memRead State.reset.mem n = some 0) ∧ State.reset.run = .ready ∧ State.reset.frec = none ∧
  State.reset.inq = [] ∧ State.reset.outlog = [] ∧ step State.reset = .next { State.reset with run := .halted }

/-- R24 (a): sequential advance is by 1 plus the operand count, not reduced modulo 32768 (decision D4, log entry 6). -/
def Obligations.SequentialAdvanceIsNotReduced : Prop :=
  ∀ (s t : State) (i : Instr), s.run.steps = true → i.wellFormed = true → SlotsAt s.mem s.pc.toNat (encode i) →
    i.opcode ∉ [Opcode.jmp, .jt, .jf, .call, .ret] → step s = .next t → t.run = .running →
    t.pc.toNat = s.pc.toNat + 1 + i.operands.length

/-- R21, R22: a step changes a register only if the instruction names it in its destination slot. -/
def Obligations.OnlyDestinationRegisterChanges : Prop :=
  ∀ (s t : State) (r : RegIdx), s.run.steps = true → step s = .next t → t.regs[r] ≠ s.regs[r] →
    t.run = .running ∧ ∃ i : Instr, i.wellFormed = true ∧ SlotsAt s.mem s.pc.toNat (encode i) ∧
      i.operands.head? = some (.reg r) ∧ i.opcode.roles.head? = some .dest

/-- R26: only `push` and `call` add to the stack and only `pop` and `ret` take from it, one Word at the top. -/
def Obligations.StackChangesOnlyAtTheTop : Prop :=
  ∀ s t : State, s.run.steps = true → step s = .next t →
    t.stack = s.stack ∨
    (∃ v, t.stack = v :: s.stack ∧ (memRead s.mem s.pc.toNat = some 2 ∨ memRead s.mem s.pc.toNat = some 17)) ∨
    (∃ v, s.stack = v :: t.stack ∧ (memRead s.mem s.pc.toNat = some 3 ∨ memRead s.mem s.pc.toNat = some 18))

/-- R27, R50: only `wmem` writes memory. -/
def Obligations.OnlyWmemWritesMemory : Prop :=
  ∀ s t : State, s.run.steps = true → step s = .next t → memRead s.mem s.pc.toNat ≠ some 16 → t.mem = s.mem

/-- R65 (the spec marks it derived): no step puts a value above 32767 into a slot. -/
def Obligations.NoStepStoresAboveWordMax : Prop :=
  ∀ (s t : State) (n : Nat) (w : Raw), step s = .next t → memRead t.mem n = some w →
    memRead s.mem n = some w ∨ w.toNat ≤ 32767

/-- R30, R31: a step appends at most one byte to the output log, by `out`, and takes at most the oldest byte of the input
queue, by `in`. -/
def Obligations.ChannelsMoveOneByteInOrder : Prop :=
  ∀ s t : State, s.run.steps = true → step s = .next t →
    (t.outlog = s.outlog ∨ ∃ b, t.outlog = s.outlog ++ [b] ∧ memRead s.mem s.pc.toNat = some 19) ∧
    (t.inq = s.inq ∨ ∃ b, s.inq = b :: t.inq ∧ memRead s.mem s.pc.toNat = some 20)

/-! ### Operands and memory -/

/-- R83, R84: `val` and `dst` on raw slots. -/
def Obligations.OperandFormsResolve : Prop :=
  ∀ (s : State) (w : Raw),
    (w.toNat ≤ 32767 → (∃ v : Word, s.val (classify w) = .ok v ∧ v.toNat = w.toNat) ∧
      dst (classify w) = .error .invalidOperandEncoding) ∧
    (∀ r : RegIdx, w.toNat = 32768 + r.val → s.val (classify w) = .ok s.regs[r] ∧ dst (classify w) = .ok r) ∧
    (32776 ≤ w.toNat → s.val (classify w) = .error .invalidOperandEncoding ∧
      dst (classify w) = .error .invalidOperandEncoding)

/-- R54: a read answers the slot inside memory and is `OutOfRange` (none) outside, whatever memory holds. -/
def Obligations.MemoryReadChecksBounds : Prop :=
  ∀ (m : Memory) (a : Nat), (a ≥ 32768 → memRead m a = none) ∧ (a < 32768 → ∃ w, memRead m a = some w)

/-- R55: a write replaces the whole slot by the zero-extended Word and changes nothing else; outside memory it is
`OutOfRange` (none). Bit 15 clear is decision D20; the canonical form is the model's own (log entry 4). -/
def Obligations.MemoryWriteReplacesOneSlot : Prop :=
  ∀ (m : Memory) (a : Nat) (v : Word),
    (a ≥ 32768 → memWrite m a v = none) ∧
    (a < 32768 → ∃ m' w, memWrite m a v = some m' ∧ memRead m' a = some w ∧ w.toNat = v.toNat ∧
      (∀ n, n ≠ a → memRead m' n = memRead m n) ∧ (m.wf = true → m'.wf = true))

/-- R183 (the spec marks it derived): what `wmem` stored, `rmem` reads, before any other write to that slot. -/
def Obligations.StoredWordIsReadBack : Prop :=
  ∀ (s t u : State) (a b c : Operand) (ea v : Word) (r : RegIdx), Resolves s a ea → Resolves s b v →
    exec (.wmem a b) s = .next t → memRead u.mem ea.toNat = memRead t.mem ea.toNat → Resolves u c ea →
    exec (.rmem (.reg r) c) u = .next { u with regs := u.regs.set r v, pc := u.pc + 3, run := .running }

/-- R62, R295: a store is seen by every later fetch of the slot, and by no other; here the slots the decoder is offered at any
address after a `wmem`. -/
def Obligations.FetchSeesStoredOpcode : Prop :=
  ∀ (s t : State) (a b : Operand) (ea v : Word), Resolves s a ea → Resolves s b v →
    exec (.wmem a b) s = .next t →
    (∀ p j : Nat, (slotsFrom t.mem p 4)[j]? =
      if j < 4 ∧ p + j = ea.toNat then some (BitVec.ofNat 16 v.toNat) else (slotsFrom s.mem p 4)[j]?) ∧
    (t.pc.toNat = ea.toNat → v.toNat = 21 →
      step t = .next { t with pc := t.pc + 1, run := .running })

/-! ### Laws of families -/

/-- R142: `eq` and `gt` yield 0 or 1, and exactly one of equal, greater and less holds (the second part the spec marks
derived). -/
def Obligations.ComparisonsAreATrichotomy : Prop :=
  ∀ (s : State) (r : RegIdx) (a b : Operand) (va vb : Word), Resolves s a va → Resolves s b vb →
    ∃ e g l, exec (.eq (.reg r) a b) s = .next e ∧ exec (.gt (.reg r) a b) s = .next g ∧
      exec (.gt (.reg r) b a) s = .next l ∧
      [e.regs[r], g.regs[r], l.regs[r]] ∈ [[1, 0, 0], [0, 1, 0], [(0 : Word), 0, 1]]

/-- R168 (the spec marks it derived): `not t b; add t t 1; add d a t` subtracts modulo 32768. -/
def Obligations.NotAddAddSubtracts : Prop :=
  ∀ (s : State) (d t : RegIdx) (a b : Operand) (va vb v : Word), Resolves s a va → Resolves s b vb → a ≠ .reg t →
    v.toNat = (va.toNat + (32768 - vb.toNat)) % 32768 →
    ∃ s1 s2 s3, exec (.not (.reg t) b) s = .next s1 ∧ exec (.add (.reg t) (.reg t) (.lit 1)) s1 = .next s2 ∧
      exec (.add (.reg d) a (.reg t)) s2 = .next s3 ∧ s3.regs[d] = v

/-- R193 (the spec marks it derived): a `ret` that meets the stack as a `call` left it resumes after the call with the stack
as before it. -/
def Obligations.RetUndoesCall : Prop :=
  ∀ (s t u : State) (a : Operand), s.run.steps = true → a.legalValue = true →
    SlotsAt s.mem s.pc.toNat (encode (.call a)) → s.pc.toNat ≤ 32765 → step s = .next t →
    u.run.steps = true → memRead u.mem u.pc.toNat = some 18 → u.stack = t.stack →
    t.run = .running ∧ ∃ v, step u = .next v ∧ v.run = .running ∧ v.pc.toNat = s.pc.toNat + 2 ∧ v.stack = s.stack

/-! ### Encoding -/

/-- R91, R89: decoding an encoded well-formed instruction gives it back, whatever slots follow. -/
def Obligations.DecodeOfEncodeIsTheInstruction : Prop :=
  ∀ (i : Instr) (rest : List Raw), i.wellFormed = true → decode (encode i ++ rest) = .instr i

/-- R80, R82, R89: the slots a decoded instruction encodes to are the slots it was decoded from, so that two readings never
share slots. -/
def Obligations.EncodeOfDecodeIsTheSlots : Prop :=
  ∀ (ws : List Raw) (i : Instr), decode ws = .instr i → i.length ≤ ws.length ∧ encode i = ws.take i.length

/-- R85, R91: a few words written out from the spec's encodings. -/
def Obligations.SampleWordsDecode : Prop :=
  decode [0x0001, 0x8007, 0x7FFF] = .instr (.set (.reg 7) (.lit 32767)) ∧
  decode [0x0005, 0x8000, 0x0005, 0x8001] = .instr (.gt (.reg 0) (.lit 5) (.reg 1)) ∧
  decode [0x0007, 0x0000, 0x0064] = .instr (.jt (.lit 0) (.lit 100)) ∧
  decode [0x0009, 0x8000, 0x8001, 0x0004] = .instr (.add (.reg 0) (.reg 1) (.lit 4)) ∧
  decode [0x0010, 0x8001, 0x8002] = .instr (.wmem (.reg 1) (.reg 2)) ∧
  decode [0x0011, 0x0005] = .instr (.call (.lit 5)) ∧
  decode [0x0014, 0x8003] = .instr (.inp (.reg 3)) ∧
  decode [0x8000] = .unknownOpcode 0x8000

/-! ### Host operations -/

/-- R221, R51: `load` and the image format. Refusing a long or odd image is decision D17 (log entry 15). -/
def Obligations.LoadInstallsImage : Prop :=
  (∀ ws : List Raw, ws.length ≤ 32768 → ∃ s, load ws = .next s ∧
    (∀ n < 32768, memRead s.mem n = some (ws[n]?.getD 0)) ∧ s = { State.reset with mem := s.mem }) ∧
  (∀ ws : List Raw, 32768 < ws.length → load ws = .refused (.imageTooLong ws.length)) ∧
  (∀ bs : List Byte, bs.length % 2 = 1 → loadImage bs = .refused (.imageOddLength bs.length)) ∧
  (∀ (bs : List Byte) (ws : List Raw), bs.length = 2 * ws.length →
    (∀ n w, ws[n]? = some w → ∃ lo hi, bs[2 * n]? = some lo ∧ bs[2 * n + 1]? = some hi ∧
      w.toNat = lo.toNat + 256 * hi.toNat) → loadImage bs = load ws)

/-- R224, R234: `supply`. The channel discipline is decision D14 (log entry 14). -/
def Obligations.SupplyAppendsBytes : Prop :=
  ∀ (s : State) (bs : List Nat),
    ((∀ b ∈ bs, b < 256) → supply bs s = .next { s with
      inq := s.inq ++ bs.map (BitVec.ofNat 8)
      run := if s.run = .suspended ∧ bs ≠ [] then .running else s.run }) ∧
    ((∃ b ∈ bs, 256 ≤ b) → supply bs s = .refused .supplyNotByte)

/-- R228, R229 (b): restoring into any core replaces the four components, makes it `Ready`, clears the record and keeps the
channels; restoring what was just captured changes none of the four. (Decisions D13 and D25, log entry 16.) -/
def Obligations.RestoreReplacesFourComponents : Prop :=
  (∀ s u : State, Inv s → restore (capture s) u = .next { u with
    regs := s.regs, pc := s.pc, stack := s.stack, mem := s.mem, run := .ready, frec := none }) ∧
  (∀ s : State, Inv s → restore (capture s) s = .next { s with run := .ready, frec := none }) ∧
  (∀ (c : Snapshot) (u : State), (32768 < c.pc.toNat ∨ c.mem.wf = false) →
    restore c u = .refused .snapshotIllFormed)

/-- R229 (d) (the spec marks it derived): a snapshot of a terminal state, restored into any core, ends the same way at the next
step. (Decisions D6, D7, D13.) -/
def Obligations.RestoredTerminalStateEndsAgain : Prop :=
  ∀ s t u v : State, s.run.steps = true → step s = .next t → t.run.steps = false →
    restore (capture t) u = .next v →
    ∃ w, step v = .next w ∧ w.run = t.run ∧ (t.run = .faulted → w.frec = t.frec)

/-- R120, R230: the trace. A record is emitted exactly for a step that completes or halts; it carries `p`, the opcode and the
operands resolved before the write. (Decision D16, log entry 17.) -/
def Obligations.TraceRecordsCompletedInstructions : Prop :=
  ∀ s t : State, step s = .next t →
    (s.run.steps = false ∨ t.run = .faulted ∨ t.run = .suspended → traceRecord s = none) ∧
    (s.run.steps = true → t.run = .running ∨ t.run = .halted →
      ∃ (i : Instr) (x : TraceRecord), i.wellFormed = true ∧ SlotsAt s.mem s.pc.toNat (encode i) ∧
        traceRecord s = some x ∧ x.pc = s.pc ∧ x.opcode = i.opcode.slot ∧
        x.operands.length = i.operands.length ∧
        ∀ (n : Nat) (o : Operand) (y : TraceOperand), i.operands[n]? = some o → x.operands[n]? = some y →
          match y with
          | .dest r => i.opcode.roles[n]? = some .dest ∧ o = .reg r
          | .value v => i.opcode.roles[n]? = some .value ∧ Resolves s o v)
end

