-- ==== Sys2Proof/Laws/Decode.lean ====
section
/-! SUPPORT. The pieces of the decoder and the encoder are each other's inverse (spec/30_encoding.md R82, R85,
R91).
-/
namespace Sys2Proof

/-- The slot of an opcode names that opcode (R85). -/
@[simp] theorem ofSlot_slot (op : Opcode) : Opcode.ofSlot op.slot = some op := by cases op <;> decide

theorem ofSlot_eq_some {w : Raw} {op : Opcode} (h : Opcode.ofSlot w = some op) : w = op.slot := by
  have := List.find?_some h
  simp only [beq_iff_eq] at this
  exact this.symm

theorem slot_toNat (op : Opcode) : op.slot.toNat = op.number := by cases op <;> rfl

theorem number_le (op : Opcode) : op.number ≤ 21 := by cases op <;> decide

/-- No opcode is found exactly above 21 (R87). -/
theorem ofSlot_eq_none (w : Raw) : Opcode.ofSlot w = none ↔ 21 < w.toNat := by
  constructor
  · intro h
    by_contra hw
    have hw : w.toNat ≤ 21 := by omega
    have key : ∀ n : Fin 22, Opcode.ofSlot (BitVec.ofNat 16 n.val) ≠ none := by decide
    exact key ⟨w.toNat, by omega⟩ (by simpa using h)
  · intro h
    cases hs : Opcode.ofSlot w with
    | none => rfl
    | some op =>
      have := ofSlot_eq_some hs
      have := number_le op
      have := slot_toNat op
      simp_all
      omega

/-- The class of a slot, by its number (R82). -/
theorem classify_cases (w : Raw) :
    (w.toNat ≤ 32767 ∧ ∃ v : Word, v.toNat = w.toNat ∧ classify w = .lit v) ∨
      (∃ r : RegIdx, w.toNat = 32768 + r.val ∧ classify w = .reg r) ∨
      (32776 ≤ w.toNat ∧ classify w = .invalid w) := by
  by_cases h : w.toNat < Config.regBase
  · have hl : w.toNat < 32768 := h
    refine .inl ⟨by omega, BitVec.ofNat 15 w.toNat, ?_, by simp [classify, h]⟩
    simp only [BitVec.toNat_ofNat]
    omega
  · have hl : ¬ w.toNat < 32768 := h
    by_cases h' : w.toNat ≤ Config.regTop
    · have hl' : w.toNat ≤ 32775 := h'
      refine .inr (.inl ⟨Fin.ofNat 8 (w.toNat - Config.regBase), ?_, by simp [classify, h, h']⟩)
      simp only [Fin.val_ofNat, Config.regBase]
      omega
    · have hl' : ¬ w.toNat ≤ 32775 := h'
      exact .inr (.inr ⟨by omega, by simp [classify, h, h']⟩)

/-- Encoding the class of a slot gives the slot back: no bit of an operand is dropped (R82, R91). -/
@[simp] theorem slot_classify (w : Raw) : (classify w).slot = w := by
  apply BitVec.eq_of_toNat_eq
  have hw := w.isLt
  unfold classify
  split
  · next h =>
    simp only [Config.regBase] at h
    simp only [Operand.slot, BitVec.toNat_ofNat]
    omega
  · split
    · next h h' =>
      simp only [Config.regBase, Config.regTop] at h h'
      simp only [Operand.slot, Config.regBase, BitVec.toNat_ofNat, Fin.val_ofNat]
      omega
    · rfl

/-- A legal operand is the class of its slot (R82). -/
theorem classify_slot (o : Operand) (h : o.legalValue = true) : classify o.slot = o := by
  cases o with
  | lit v =>
    have hv := v.isLt
    have e : (BitVec.ofNat 16 v.toNat).toNat = v.toNat := by simp only [BitVec.toNat_ofNat]; omega
    simp only [classify, Operand.slot, e, Config.regBase, hv, if_true]
    congr 1
    apply BitVec.eq_of_toNat_eq
    simp only [BitVec.toNat_ofNat]
    omega
  | reg r =>
    have key : ∀ r : Fin 8, classify (Operand.slot (.reg r)) = .reg r := by decide
    exact key r
  | invalid w => simp [Operand.legalValue] at h

theorem legalValue_of_legalDest (o : Operand) (h : o.legalDest = true) : o.legalValue = true := by
  cases o <;> simp_all [Operand.legalDest, Operand.legalValue]

theorem accepts_legalValue (r : Role) (o : Operand) (h : r.accepts o = true) : o.legalValue = true := by
  cases r with
  | dest => exact legalValue_of_legalDest o h
  | value => exact h

/-- An instruction has as many operands as its opcode has roles (R86). -/
theorem operands_length (i : Instr) : i.operands.length = i.opcode.arity := by cases i <;> rfl

/-- Well-formed is: every operand is legal in its role (R83, R84, R88). -/
theorem wellFormed_eq (i : Instr) :
    i.wellFormed = (i.opcode.roles.zip i.operands).all fun (r, o) => r.accepts o := by
  cases i <;>
    simp [Instr.wellFormed, Instr.opcode, Instr.operands, Opcode.roles, Role.accepts, Bool.and_assoc]

theorem operands_legal {i : Instr} (h : i.wellFormed = true) : ∀ o ∈ i.operands, o.legalValue = true := by
  intro o ho
  cases i <;> simp only [Instr.operands, List.mem_cons, List.not_mem_nil, or_false] at ho <;>
    simp only [Instr.wellFormed, Bool.and_eq_true] at h <;>
    (rcases ho with rfl | rfl | rfl) <;> simp_all [legalValue_of_legalDest]

/-- Building an instruction from its own opcode and operands gives it back, whatever follows. -/
theorem build_operands (i : Instr) (rest : List Operand) : i.opcode.build (i.operands ++ rest) = some i := by
  cases i <;> rfl

theorem build1_some {f : Operand → Instr} {ops : List Operand} {i : Instr} (h : build1 f ops = some i) :
    ∃ a rest, ops = a :: rest ∧ i = f a := by
  match ops with
  | [] => simp [build1] at h
  | a :: rest => exact ⟨a, rest, rfl, by simpa [build1, eq_comm] using h⟩

theorem build2_some {f : Operand → Operand → Instr} {ops : List Operand} {i : Instr}
    (h : build2 f ops = some i) : ∃ a b rest, ops = a :: b :: rest ∧ i = f a b := by
  match ops with
  | [] | [_] => simp [build2] at h
  | a :: b :: rest => exact ⟨a, b, rest, rfl, by simpa [build2, eq_comm] using h⟩

theorem build3_some {f : Operand → Operand → Operand → Instr} {ops : List Operand} {i : Instr}
    (h : build3 f ops = some i) : ∃ a b c rest, ops = a :: b :: c :: rest ∧ i = f a b c := by
  match ops with
  | [] | [_] | [_, _] => simp [build3] at h
  | a :: b :: c :: rest => exact ⟨a, b, c, rest, rfl, by simpa [build3, eq_comm] using h⟩

/-- Everything `build` can answer: an instruction of that opcode, whose operands are the first of the list. -/
theorem build_some {op : Opcode} {ops : List Operand} {i : Instr} (h : op.build ops = some i) :
    i.opcode = op ∧ ∃ rest, ops = i.operands ++ rest := by
  cases op <;> simp only [Opcode.build] at h <;>
    first
    | (cases h; exact ⟨rfl, ops, rfl⟩)
    | (obtain ⟨a, rest, rfl, rfl⟩ := build1_some h; exact ⟨rfl, rest, rfl⟩)
    | (obtain ⟨a, b, rest, rfl, rfl⟩ := build2_some h; exact ⟨rfl, rest, rfl⟩)
    | (obtain ⟨a, b, c, rest, rfl, rfl⟩ := build3_some h; exact ⟨rfl, rest, rfl⟩)

/-- `build` fails exactly where operands are missing. -/
theorem build_none (op : Opcode) (ops : List Operand) : op.build ops = none ↔ ops.length < op.arity := by
  constructor
  · intro h
    match ops with
    | [] => cases op <;> simp_all [Opcode.build, Opcode.arity, Opcode.roles]
    | [a] => cases op <;> simp_all [Opcode.build, Opcode.arity, Opcode.roles, build1]
    | [a, b] => cases op <;> simp_all [Opcode.build, Opcode.arity, Opcode.roles, build1, build2]
    | a :: b :: c :: rest => cases op <;> simp [Opcode.build, build1, build2, build3] at h
  · intro h
    cases hb : op.build ops with
    | none => rfl
    | some i =>
      obtain ⟨rfl, rest, rfl⟩ := build_some hb
      simp [operands_length] at h

/-- Everything `decode` can answer (R93). -/
theorem decode_cases (ws : List Raw) :
    (ws = [] ∧ decode ws = .noOpcodeSlot) ∨
      (∃ w rest, ws = w :: rest ∧ 21 < w.toNat ∧ decode ws = .unknownOpcode w) ∨
      (∃ i rest, ws = i.opcode.slot :: rest ∧ i.operands = (rest.take i.opcode.arity).map classify ∧
        i.opcode.arity ≤ rest.length ∧ decode ws = .instr i) ∨
      (∃ op rest, ws = op.slot :: rest ∧ rest.length < op.arity ∧
        decode ws = .truncated op (rest.map classify)) := by
  match ws with
  | [] => exact .inl ⟨rfl, rfl⟩
  | w :: rest =>
    right
    cases hs : Opcode.ofSlot w with
    | none => exact .inl ⟨w, rest, rfl, (ofSlot_eq_none w).1 hs, by simp [decode, hs]⟩
    | some op =>
      right
      have hw := ofSlot_eq_some hs
      cases hb : op.build (rest.map classify) with
      | none =>
        refine .inr ⟨op, rest, by rw [hw], ?_, by simp [decode, hs, hb]⟩
        simpa using (build_none op _).1 hb
      | some i =>
        obtain ⟨rfl, more, hm⟩ := build_some hb
        refine .inl ⟨i, rest, by rw [hw], ?_, ?_, by simp [decode, hs, hb]⟩
        · rw [List.map_take, hm, ← operands_length, List.take_left]
        · have := congrArg List.length hm
          simp only [List.length_map, List.length_append, operands_length] at this
          omega

end Sys2Proof
end

