-- ==== Sys2Proof/Laws/Memory.lean ====
section
/-! SUPPORT. The laws of memory (spec/20_memory.md R54, R55): a read after a write, the canonical form kept by
every operation, the slots of an image and of a fetch.
-/
namespace Sys2Proof.Machine

/-! ### Lists of cells -/

theorem lookupCell_eraseCell_same (a : Nat) (c : List (Nat × Raw)) :
    lookupCell (eraseCell a c) a = Config.unlistedSlot := by
  induction c with
  | nil => rfl
  | cons x rest ih =>
    obtain ⟨k, w⟩ := x
    by_cases h : k = a <;> simp [eraseCell, lookupCell, h, ih]

theorem lookupCell_eraseCell_other (a b : Nat) (h : b ≠ a) (c : List (Nat × Raw)) :
    lookupCell (eraseCell a c) b = lookupCell c b := by
  induction c with
  | nil => rfl
  | cons x rest ih =>
    obtain ⟨k, w⟩ := x
    by_cases ha : k = a
    · subst ha; simp [eraseCell, lookupCell, ih, Ne.symm h]
    · simp [eraseCell, lookupCell, ha, ih]

theorem lookupCell_insertCell_other (a b : Nat) (v : Raw) (h : b ≠ a) (c : List (Nat × Raw)) :
    lookupCell (insertCell a v c) b = lookupCell c b := by
  induction c with
  | nil => simp [insertCell, lookupCell, Ne.symm h]
  | cons x rest ih =>
    obtain ⟨k, w⟩ := x
    by_cases hk : a < k
    · simp [insertCell, lookupCell, hk, Ne.symm h]
    · simp [insertCell, lookupCell, hk, ih]

theorem lookupCell_insertCell_same (a : Nat) (v : Raw) (c : List (Nat × Raw)) :
    lookupCell (insertCell a v (eraseCell a c)) a = v := by
  induction c with
  | nil => simp [eraseCell, insertCell, lookupCell]
  | cons x rest ih =>
    obtain ⟨k, w⟩ := x
    by_cases h : k = a
    · simpa [eraseCell, h] using ih
    · by_cases hk : a < k <;> simp [eraseCell, insertCell, lookupCell, h, hk, ih]

/-! ### One slot -/

theorem lookupCell_put_same (m : Memory) (a : Nat) (v : Raw) : lookupCell (m.put a v).cells a = v := by
  unfold Memory.put
  split
  · next h => rw [h, lookupCell_eraseCell_same]
  · exact lookupCell_insertCell_same a v m.cells

theorem lookupCell_put_other (m : Memory) (a b : Nat) (v : Raw) (h : b ≠ a) :
    lookupCell (m.put a v).cells b = lookupCell m.cells b := by
  unfold Memory.put
  split
  · exact lookupCell_eraseCell_other a b h m.cells
  · rw [lookupCell_insertCell_other a b v h, lookupCell_eraseCell_other a b h]

theorem memRead_put_same (m : Memory) (a : Nat) (v : Raw) (h : a < Config.memSlots) :
    memRead (m.put a v) a = some v := by
  simp [memRead, h, lookupCell_put_same]

theorem memRead_put_other (m : Memory) (a b : Nat) (v : Raw) (h : b ≠ a) :
    memRead (m.put a v) b = memRead m b := by
  simp [memRead, lookupCell_put_other m a b v h]

/-- A read answers exactly at the addresses that exist (R54). -/
theorem memRead_isSome (m : Memory) (a : Nat) : (memRead m a).isSome ↔ a < Config.memSlots := by
  unfold memRead; split <;> simp_all

theorem memRead_none (m : Memory) (a : Nat) : memRead m a = none ↔ Config.memSlots ≤ a := by
  unfold memRead; split <;> simp_all

theorem memRead_lt {m : Memory} {a : Nat} {w : Raw} (h : memRead m a = some w) : a < Config.memSlots :=
  (memRead_isSome m a).1 (by simp [h])

/-- Everything a write can do (R55). -/
theorem memWrite_some (m m' : Memory) (a : Nat) (v : Word) :
    memWrite m a v = some m' ↔ a < Config.memSlots ∧ m' = m.put a (wordToSlot v) := by
  unfold memWrite
  split <;> simp_all [eq_comm]

/-! ### The canonical form -/

theorem cellsWf_mono {lo hi : Nat} (h : lo ≤ hi) {c : List (Nat × Raw)} (w : cellsWf hi c = true) :
    cellsWf lo c = true := by
  cases c with
  | nil => rfl
  | cons x rest =>
    obtain ⟨k, v⟩ := x
    simp only [cellsWf, Bool.and_eq_true, decide_eq_true_eq] at w ⊢
    exact ⟨⟨⟨by omega, w.1.1.2⟩, w.1.2⟩, w.2⟩

theorem cellsWf_eraseCell (a : Nat) (c : List (Nat × Raw)) (lo : Nat) (w : cellsWf lo c = true) :
    cellsWf lo (eraseCell a c) = true := by
  induction c generalizing lo with
  | nil => rfl
  | cons x rest ih =>
    obtain ⟨k, v⟩ := x
    simp only [cellsWf, Bool.and_eq_true, decide_eq_true_eq] at w
    by_cases h : k = a
    · simpa [eraseCell, h] using ih lo (cellsWf_mono (by omega) w.2)
    · simp only [eraseCell, h, if_false, cellsWf, Bool.and_eq_true, decide_eq_true_eq]
      exact ⟨w.1, ih _ w.2⟩

theorem eraseCell_keys (a : Nat) (c : List (Nat × Raw)) : ∀ x ∈ eraseCell a c, x.1 ≠ a := by
  induction c with
  | nil => simp [eraseCell]
  | cons x rest ih =>
    obtain ⟨k, v⟩ := x
    by_cases h : k = a
    · simpa [eraseCell, h] using ih
    · simp only [eraseCell, h, if_false, List.mem_cons, forall_eq_or_imp]
      exact ⟨h, ih⟩

theorem cellsWf_insertCell (a : Nat) (v : Raw) (ha : a < Config.memSlots) (hv : v ≠ Config.unlistedSlot)
    (c : List (Nat × Raw)) (hc : ∀ x ∈ c, x.1 ≠ a) (lo : Nat) (hlo : lo ≤ a) (w : cellsWf lo c = true) :
    cellsWf lo (insertCell a v c) = true := by
  induction c generalizing lo with
  | nil => simp [insertCell, cellsWf, ha, hv, hlo]
  | cons x rest ih =>
    obtain ⟨k, u⟩ := x
    have hk : k ≠ a := hc (k, u) (by simp)
    simp only [cellsWf, Bool.and_eq_true, decide_eq_true_eq] at w
    by_cases h : a < k
    · simp only [insertCell, h, if_true, cellsWf, Bool.and_eq_true, decide_eq_true_eq]
      exact ⟨⟨⟨hlo, ha⟩, by simpa using hv⟩, ⟨⟨by omega, w.1.1.2⟩, w.1.2⟩, w.2⟩
    · simp only [insertCell, h, if_false, cellsWf, Bool.and_eq_true, decide_eq_true_eq]
      exact ⟨w.1, ih (fun x hx => hc x (by simp [hx])) (k + 1) (by omega) w.2⟩

/-- Replacing a slot keeps the canonical form. -/
theorem put_wf (m : Memory) (a : Nat) (v : Raw) (ha : a < Config.memSlots) (w : m.wf = true) :
    (m.put a v).wf = true := by
  unfold Memory.put Memory.wf
  split
  · exact cellsWf_eraseCell a m.cells 0 w
  · next hv =>
    exact cellsWf_insertCell a v ha hv _ (eraseCell_keys a m.cells) 0 (Nat.zero_le a)
      (cellsWf_eraseCell a m.cells 0 w)

/-- A memory write keeps the canonical form. -/
theorem memWrite_wf (m m' : Memory) (a : Nat) (v : Word) (w : m.wf = true) (h : memWrite m a v = some m') :
    m'.wf = true := by
  obtain ⟨ha, rfl⟩ := (memWrite_some m m' a v).1 h
  exact put_wf m a _ ha w

theorem putAll_wf (m : Memory) (a : Nat) (ws : List Raw) (h : a + ws.length ≤ Config.memSlots)
    (w : m.wf = true) : (m.putAll a ws).wf = true := by
  induction ws generalizing m a with
  | nil => exact w
  | cons x ws ih =>
    simp only [List.length_cons] at h
    exact ih (m.put a x) (a + 1) (by omega) (put_wf m a x (by omega) w)

theorem imageCells_wf (ws : List Raw) (a lo : Nat) (hlo : lo ≤ a) (h : a + ws.length ≤ Config.memSlots) :
    cellsWf lo (imageCells a ws) = true := by
  induction ws generalizing a lo with
  | nil => rfl
  | cons x ws ih =>
    simp only [List.length_cons] at h
    by_cases hx : x = Config.unlistedSlot
    · simpa [imageCells, hx] using ih (a + 1) lo (by omega) (by omega)
    · simp only [imageCells, hx, if_false, cellsWf, Bool.and_eq_true, decide_eq_true_eq]
      exact ⟨⟨⟨hlo, by omega⟩, by simpa using hx⟩, ih (a + 1) (a + 1) (by omega) (by omega)⟩

/-- The memory of an image that fits has the canonical form. -/
theorem ofImage_wf (ws : List Raw) (h : ws.length ≤ Config.memSlots) : (Memory.ofImage ws).wf = true :=
  imageCells_wf ws 0 0 (Nat.le_refl 0) (by omega)

theorem lookupCell_imageCells_below (ws : List Raw) (a b : Nat) (h : b < a) :
    lookupCell (imageCells a ws) b = Config.unlistedSlot := by
  induction ws generalizing a with
  | nil => rfl
  | cons x ws ih =>
    by_cases hx : x = Config.unlistedSlot
    · simpa [imageCells, hx] using ih (a + 1) (by omega)
    · have : a ≠ b := by omega
      simpa [imageCells, hx, lookupCell, this] using ih (a + 1) (by omega)

/-- What an image puts at an address: its word, or the unlisted value beyond it (R221). -/
theorem lookupCell_imageCells (ws : List Raw) (a n : Nat) :
    lookupCell (imageCells a ws) (a + n) = ws[n]?.getD Config.unlistedSlot := by
  induction ws generalizing a n with
  | nil => rfl
  | cons x ws ih =>
    cases n with
    | zero =>
      by_cases hx : x = Config.unlistedSlot
      · simpa [imageCells, hx] using lookupCell_imageCells_below ws (a + 1) a (by omega)
      · simp [imageCells, hx, lookupCell]
    | succ n =>
      have e : a + (n + 1) = (a + 1) + n := by omega
      have := ih (a + 1) n
      by_cases hx : x = Config.unlistedSlot
      · simpa [imageCells, hx, e] using this
      · have hne : ¬ a = a + 1 + n := by omega
        simpa [imageCells, hx, lookupCell, e, hne] using this

theorem lookupCell_putAll_below (m : Memory) (ws : List Raw) (a b : Nat) (h : b < a) :
    lookupCell (m.putAll a ws).cells b = lookupCell m.cells b := by
  induction ws generalizing m a with
  | nil => rfl
  | cons x ws ih =>
    rw [Memory.putAll, ih (m.put a x) (a + 1) (by omega), lookupCell_put_other m a b x (by omega)]

/-- What a run of slots written from an address up leaves there. -/
theorem lookupCell_putAll (m : Memory) (ws : List Raw) (a n : Nat) (w : Raw) (h : ws[n]? = some w) :
    lookupCell (m.putAll a ws).cells (a + n) = w := by
  induction ws generalizing m a n with
  | nil => simp at h
  | cons x ws ih =>
    cases n with
    | zero =>
      simp only [List.getElem?_cons_zero, Option.some.injEq] at h
      show lookupCell ((m.put a x).putAll (a + 1) ws).cells a = w
      rw [lookupCell_putAll_below _ ws (a + 1) a (by omega), lookupCell_put_same, h]
    | succ n =>
      have e : a + (n + 1) = (a + 1) + n := by omega
      rw [Memory.putAll, e]
      exact ih (m.put a x) (a + 1) n (by simpa using h)

/-! ### The slots a fetch is offered -/

theorem slotsFrom_length_le (m : Memory) (n a : Nat) : (slotsFrom m a n).length ≤ n := by
  induction n generalizing a with
  | zero => simp [slotsFrom]
  | succ n ih =>
    simp only [slotsFrom]
    split
    · simp
    · simpa using ih (a + 1)

/-- The slot at offset `j`: memory's own where the fetch reaches, none beyond (R66). -/
theorem slotsFrom_getElem? (m : Memory) (n a j : Nat) :
    (slotsFrom m a n)[j]? = if j < n then memRead m (a + j) else none := by
  induction n generalizing a j with
  | zero => simp [slotsFrom]
  | succ n ih =>
    simp only [slotsFrom]
    split
    · next h =>
      have h : Config.memSlots ≤ a := (memRead_none m a).1 h
      have : memRead m (a + j) = none := (memRead_none m (a + j)).2 (by omega)
      simp [this]
    · next w h =>
      cases j with
      | zero => simp [h]
      | succ j =>
        have e : a + (j + 1) = (a + 1) + j := by omega
        simp [ih (a + 1) j, e]

/-- Where all the slots exist, all are offered. -/
theorem slotsFrom_length (m : Memory) (n a : Nat) : (slotsFrom m a n).length = min n (Config.memSlots - a) := by
  induction n generalizing a with
  | zero => simp [slotsFrom]
  | succ n ih =>
    simp only [slotsFrom]
    split
    · next h =>
      have := (memRead_none m a).1 h
      simp; omega
    · next w h =>
      have := memRead_lt h
      simp only [List.length_cons, ih (a + 1)]
      omega

end Sys2Proof.Machine
end

