-- ==== Sys2Proof/Laws/Operands.lean ====
section
/-! SUPPORT. What `val`, `dst` and the shared shapes of the meanings can answer (spec/30_encoding.md R83, R84,
spec/40_execution_cycle.md R113 to R115).
-/
namespace Sys2Proof.Machine

/-! ### A chain of checks -/

@[simp] theorem ok_bind {ε α β : Type} (a : α) (f : α → Except ε β) : (Except.ok a >>= f) = f a := rfl

@[simp] theorem error_bind {ε α β : Type} (e : ε) (f : α → Except ε β) :
    ((Except.error e : Except ε α) >>= f) = .error e := rfl

@[simp] theorem pure_eq_ok {ε α : Type} (a : α) : (pure a : Except ε α) = .ok a := rfl

@[simp] theorem conclude_ok (op : Opcode) (s t : State) : conclude op s (.ok t) = .next t := rfl

@[simp] theorem conclude_error (op : Opcode) (s : State) (k : FaultKind) :
    conclude op s (.error k) = .next (s.takeFault k (some op.slot)) := rfl

/-! ### Operands -/

@[simp] theorem val_lit (s : State) (v : Word) : s.val (.lit v) = .ok v := rfl
@[simp] theorem val_reg (s : State) (r : RegIdx) : s.val (.reg r) = .ok (s.reg r) := rfl
@[simp] theorem val_invalid (s : State) (w : Raw) : s.val (.invalid w) = .error .invalidOperandEncoding := rfl
@[simp] theorem dst_reg (r : RegIdx) : dst (.reg r) = .ok r := rfl
@[simp] theorem dst_lit (v : Word) : dst (.lit v) = .error .invalidOperandEncoding := rfl
@[simp] theorem dst_invalid (w : Raw) : dst (.invalid w) = .error .invalidOperandEncoding := rfl

/-- A value operand resolves, or is illegal and raises `InvalidOperandEncoding` (R83). -/
theorem val_cases (s : State) (a : Operand) :
    (∃ v, s.val a = .ok v ∧ a.legalValue = true) ∨
      (s.val a = .error .invalidOperandEncoding ∧ a.legalValue = false) := by
  cases a <;> simp [Operand.legalValue]

/-- A destination operand names a register, or is illegal and raises `InvalidOperandEncoding` (R84). -/
theorem dst_cases (d : Operand) :
    (∃ r, d = .reg r) ∨ (dst d = .error .invalidOperandEncoding ∧ d.legalDest = false) := by
  cases d <;> simp [Operand.legalDest]

@[simp] theorem legalDest_reg (r : RegIdx) : (Operand.reg r).legalDest = true := rfl

/-! ### The shared shapes -/

/-- `unary` where its operands are legal: what its function answers decides. -/
theorem unary_reg (op : Opcode) (f : Word → Except FaultKind Word) (r : RegIdx) (a : Operand) (s : State)
    (va : Word) (ha : s.val a = .ok va) :
    unary op f (.reg r) a s = conclude op s ((f va).map fun v => (s.setReg r v).advance 3) := by
  simp only [unary, dst_reg, ha, ok_bind, pure_eq_ok]
  cases f va <;> rfl

/-- `binary` where its operands are legal: what its function answers decides. -/
theorem binary_reg (op : Opcode) (f : Word → Word → Except FaultKind Word) (r : RegIdx) (a b : Operand)
    (s : State) (va vb : Word) (ha : s.val a = .ok va) (hb : s.val b = .ok vb) :
    binary op f (.reg r) a b s = conclude op s ((f va vb).map fun v => (s.setReg r v).advance 4) := by
  simp only [binary, dst_reg, ha, hb, ok_bind, pure_eq_ok]
  cases f va vb <;> rfl

/-- Everything `unary` can do: write the destination and advance, raise what its function raises, or reject
an operand. -/
theorem unary_cases (op : Opcode) (f : Word → Except FaultKind Word) (d a : Operand) (s : State) :
    (∃ r va v, d = .reg r ∧ s.val a = .ok va ∧ a.legalValue = true ∧ f va = .ok v ∧
        unary op f d a s = .next ((s.setReg r v).advance 3)) ∨
      (∃ r va k, d = .reg r ∧ s.val a = .ok va ∧ a.legalValue = true ∧ f va = .error k ∧
        unary op f d a s = .next (s.takeFault k (some op.slot))) ∨
      ((d.legalDest && a.legalValue) = false ∧
        unary op f d a s = .next (s.takeFault .invalidOperandEncoding (some op.slot))) := by
  obtain ⟨r, rfl⟩ | ⟨hd, hl⟩ := dst_cases d
  · obtain ⟨va, ha, la⟩ | ⟨ha, la⟩ := val_cases s a
    · cases hf : f va with
      | ok v => exact .inl ⟨r, va, v, rfl, ha, la, hf, by simp [unary_reg op f r a s va ha, hf, Except.map]⟩
      | error k => exact .inr (.inl ⟨r, va, k, rfl, ha, la, hf, by simp [unary_reg op f r a s va ha, hf, Except.map]⟩)
    · exact .inr (.inr ⟨by simp [la], by simp [unary, ha]⟩)
  · exact .inr (.inr ⟨by simp [hl], by simp [unary, hd]⟩)

/-- Everything `binary` can do: write the destination and advance, raise what its function raises, or reject
an operand. -/
theorem binary_cases (op : Opcode) (f : Word → Word → Except FaultKind Word) (d a b : Operand) (s : State) :
    (∃ r va vb v, d = .reg r ∧ s.val a = .ok va ∧ s.val b = .ok vb ∧ a.legalValue = true ∧
        b.legalValue = true ∧ f va vb = .ok v ∧ binary op f d a b s = .next ((s.setReg r v).advance 4)) ∨
      (∃ r va vb k, d = .reg r ∧ s.val a = .ok va ∧ s.val b = .ok vb ∧ a.legalValue = true ∧
        b.legalValue = true ∧ f va vb = .error k ∧ binary op f d a b s = .next (s.takeFault k (some op.slot))) ∨
      ((d.legalDest && a.legalValue && b.legalValue) = false ∧
        binary op f d a b s = .next (s.takeFault .invalidOperandEncoding (some op.slot))) := by
  obtain ⟨r, rfl⟩ | ⟨hd, hl⟩ := dst_cases d
  · obtain ⟨va, ha, la⟩ | ⟨ha, la⟩ := val_cases s a
    · obtain ⟨vb, hb, lb⟩ | ⟨hb, lb⟩ := val_cases s b
      · cases hf : f va vb with
        | ok v =>
          exact .inl ⟨r, va, vb, v, rfl, ha, hb, la, lb, hf,
            by simp [binary_reg op f r a b s va vb ha hb, hf, Except.map]⟩
        | error k =>
          exact .inr (.inl ⟨r, va, vb, k, rfl, ha, hb, la, lb, hf,
            by simp [binary_reg op f r a b s va vb ha hb, hf, Except.map]⟩)
      · exact .inr (.inr ⟨by simp [lb], by simp [binary, ha, hb]⟩)
    · exact .inr (.inr ⟨by simp [la], by simp [binary, ha]⟩)
  · exact .inr (.inr ⟨by simp [hl], by simp [binary, hd]⟩)

end Sys2Proof.Machine
end

