-- ==== Sys2Proof/Laws/State.lean ====
section
/-! SUPPORT. What each update of State does to each field, one lemma per field per update, and the reading of a
register after a write (spec/10_state.md R20, R21).
-/
namespace Sys2Proof.Machine

variable (s : State)

/-! ### setReg -/

@[simp] theorem setReg_regs (r : RegIdx) (v : Word) : (s.setReg r v).regs = s.regs.set r v := rfl
@[simp] theorem setReg_pc (r : RegIdx) (v : Word) : (s.setReg r v).pc = s.pc := rfl
@[simp] theorem setReg_stack (r : RegIdx) (v : Word) : (s.setReg r v).stack = s.stack := rfl
@[simp] theorem setReg_mem (r : RegIdx) (v : Word) : (s.setReg r v).mem = s.mem := rfl
@[simp] theorem setReg_run (r : RegIdx) (v : Word) : (s.setReg r v).run = s.run := rfl
@[simp] theorem setReg_frec (r : RegIdx) (v : Word) : (s.setReg r v).frec = s.frec := rfl
@[simp] theorem setReg_inq (r : RegIdx) (v : Word) : (s.setReg r v).inq = s.inq := rfl
@[simp] theorem setReg_outlog (r : RegIdx) (v : Word) : (s.setReg r v).outlog = s.outlog := rfl

/-! ### push -/

@[simp] theorem push_regs (v : Word) : (s.push v).regs = s.regs := rfl
@[simp] theorem push_pc (v : Word) : (s.push v).pc = s.pc := rfl
@[simp] theorem push_stack (v : Word) : (s.push v).stack = v :: s.stack := rfl
@[simp] theorem push_mem (v : Word) : (s.push v).mem = s.mem := rfl
@[simp] theorem push_run (v : Word) : (s.push v).run = s.run := rfl
@[simp] theorem push_frec (v : Word) : (s.push v).frec = s.frec := rfl
@[simp] theorem push_inq (v : Word) : (s.push v).inq = s.inq := rfl
@[simp] theorem push_outlog (v : Word) : (s.push v).outlog = s.outlog := rfl

/-! ### advance -/

@[simp] theorem advance_regs (n : Nat) : (s.advance n).regs = s.regs := rfl
@[simp] theorem advance_pc (n : Nat) : (s.advance n).pc = s.pc + BitVec.ofNat 16 n := rfl
@[simp] theorem advance_stack (n : Nat) : (s.advance n).stack = s.stack := rfl
@[simp] theorem advance_mem (n : Nat) : (s.advance n).mem = s.mem := rfl
@[simp] theorem advance_run (n : Nat) : (s.advance n).run = .running := rfl
@[simp] theorem advance_frec (n : Nat) : (s.advance n).frec = s.frec := rfl
@[simp] theorem advance_inq (n : Nat) : (s.advance n).inq = s.inq := rfl
@[simp] theorem advance_outlog (n : Nat) : (s.advance n).outlog = s.outlog := rfl

/-! ### jumpTo -/

@[simp] theorem jumpTo_regs (v : Word) : (s.jumpTo v).regs = s.regs := rfl
@[simp] theorem jumpTo_pc (v : Word) : (s.jumpTo v).pc = wordToPc v := rfl
@[simp] theorem jumpTo_stack (v : Word) : (s.jumpTo v).stack = s.stack := rfl
@[simp] theorem jumpTo_mem (v : Word) : (s.jumpTo v).mem = s.mem := rfl
@[simp] theorem jumpTo_run (v : Word) : (s.jumpTo v).run = .running := rfl
@[simp] theorem jumpTo_frec (v : Word) : (s.jumpTo v).frec = s.frec := rfl
@[simp] theorem jumpTo_inq (v : Word) : (s.jumpTo v).inq = s.inq := rfl
@[simp] theorem jumpTo_outlog (v : Word) : (s.jumpTo v).outlog = s.outlog := rfl

/-! ### outPut -/

@[simp] theorem outPut_regs (b : Byte) : (s.outPut b).regs = s.regs := rfl
@[simp] theorem outPut_pc (b : Byte) : (s.outPut b).pc = s.pc := rfl
@[simp] theorem outPut_stack (b : Byte) : (s.outPut b).stack = s.stack := rfl
@[simp] theorem outPut_mem (b : Byte) : (s.outPut b).mem = s.mem := rfl
@[simp] theorem outPut_run (b : Byte) : (s.outPut b).run = s.run := rfl
@[simp] theorem outPut_frec (b : Byte) : (s.outPut b).frec = s.frec := rfl
@[simp] theorem outPut_inq (b : Byte) : (s.outPut b).inq = s.inq := rfl
@[simp] theorem outPut_outlog (b : Byte) : (s.outPut b).outlog = s.outlog ++ [b] := rfl

/-! ### suspend -/

@[simp] theorem suspend_regs : (s.suspend).regs = s.regs := rfl
@[simp] theorem suspend_pc : (s.suspend).pc = s.pc := rfl
@[simp] theorem suspend_stack : (s.suspend).stack = s.stack := rfl
@[simp] theorem suspend_mem : (s.suspend).mem = s.mem := rfl
@[simp] theorem suspend_run : (s.suspend).run = .suspended := rfl
@[simp] theorem suspend_frec : (s.suspend).frec = s.frec := rfl
@[simp] theorem suspend_inq : (s.suspend).inq = s.inq := rfl
@[simp] theorem suspend_outlog : (s.suspend).outlog = s.outlog := rfl

/-! ### halt -/

@[simp] theorem halt_regs : (s.halt).regs = s.regs := rfl
@[simp] theorem halt_pc : (s.halt).pc = s.pc := rfl
@[simp] theorem halt_stack : (s.halt).stack = s.stack := rfl
@[simp] theorem halt_mem : (s.halt).mem = s.mem := rfl
@[simp] theorem halt_run : (s.halt).run = .halted := rfl
@[simp] theorem halt_frec : (s.halt).frec = s.frec := rfl
@[simp] theorem halt_inq : (s.halt).inq = s.inq := rfl
@[simp] theorem halt_outlog : (s.halt).outlog = s.outlog := rfl

/-! ### takeFault -/

@[simp] theorem takeFault_regs (k : FaultKind) (fop : Option Raw) : (s.takeFault k fop).regs = s.regs := rfl
@[simp] theorem takeFault_pc (k : FaultKind) (fop : Option Raw) : (s.takeFault k fop).pc = s.pc := rfl
@[simp] theorem takeFault_stack (k : FaultKind) (fop : Option Raw) : (s.takeFault k fop).stack = s.stack := rfl
@[simp] theorem takeFault_mem (k : FaultKind) (fop : Option Raw) : (s.takeFault k fop).mem = s.mem := rfl
@[simp] theorem takeFault_run (k : FaultKind) (fop : Option Raw) : (s.takeFault k fop).run = .faulted := rfl
@[simp] theorem takeFault_frec (k : FaultKind) (fop : Option Raw) : (s.takeFault k fop).frec = some { kind := k, fpc := s.pc, fop := fop } := rfl
@[simp] theorem takeFault_inq (k : FaultKind) (fop : Option Raw) : (s.takeFault k fop).inq = s.inq := rfl
@[simp] theorem takeFault_outlog (k : FaultKind) (fop : Option Raw) : (s.takeFault k fop).outlog = s.outlog := rfl

/-! ### Registers -/

@[simp] theorem reg_setReg_same (r : RegIdx) (v : Word) : (s.setReg r v).reg r = v := by
  simp [State.reg, State.setReg]

@[simp] theorem reg_setReg_other (r q : RegIdx) (v : Word) (h : r ≠ q) : (s.setReg r v).reg q = s.reg q := by
  have h : r.val ≠ q.val := fun e => h (Fin.ext e)
  simp [State.reg, State.setReg, h]

theorem reg_eq (r : RegIdx) : s.reg r = s.regs[r] := rfl

/-- A word carried to the program counter keeps its number. -/
@[simp] theorem wordToPc_toNat (v : Word) : (wordToPc v).toNat = v.toNat := by
  have := v.isLt; simp [wordToPc]; omega

@[simp] theorem wordToSlot_toNat (v : Word) : (wordToSlot v).toNat = v.toNat := by
  have := v.isLt; simp [wordToSlot]; omega

@[simp] theorem byteToWord_toNat (b : Byte) : (byteToWord b).toNat = b.toNat := by
  have := b.isLt; simp [byteToWord]; omega

@[simp] theorem lowByte_toNat (v : Word) : (lowByte v).toNat = v.toNat % 256 := by
  simp [lowByte]

/-- A pop takes the top or raises `StackUnderflow` (R26). -/
theorem pop_nil (h : s.stack = []) : s.pop = .error .stackUnderflow := by simp [State.pop, h]

theorem pop_cons (v : Word) (rest : List Word) (h : s.stack = v :: rest) :
    s.pop = .ok (v, { s with stack := rest }) := by simp [State.pop, h]

theorem inTake_nil (h : s.inq = []) : s.inTake = none := by simp [State.inTake, h]

theorem inTake_cons (b : Byte) (rest : List Byte) (h : s.inq = b :: rest) :
    s.inTake = some (b, { s with inq := rest }) := by simp [State.inTake, h]

end Sys2Proof.Machine
end

