-- ==== Sys2Proof/Laws/Exec.lean ====
section
/-! SUPPORT. Everything an instruction can do, said once (spec/40_execution_cycle.md R114 to R117): later proofs
take the cases of `exec_effect` and do not unfold the meanings.
-/
namespace Sys2Proof.Machine

/-- Why an instruction that could be fetched whole ends in a fault (R250, R258). -/
inductive FaultCause (s : State) : Instr → FaultKind → Prop where
  | illegal (i : Instr) (h : i.wellFormed = false) : FaultCause s i .invalidOperandEncoding
  | popEmpty (r : RegIdx) (h : s.stack = []) : FaultCause s (.pop (.reg r)) .stackUnderflow
  | retEmpty (h : s.stack = []) : FaultCause s .ret .stackUnderflow
  | modZero (r : RegIdx) (a b : Operand) (la : a.legalValue = true)
      (lb : b.legalValue = true) (h : s.val b = .ok 0) : FaultCause s (.mod (.reg r) a b) .divisionByZero
  | nonWord (r : RegIdx) (a : Operand) (ea : Word) (w : Raw) (ha : s.val a = .ok ea) (la : a.legalValue = true)
      (hr : memRead s.mem ea.toNat = some w) (hw : slotAsWord w = none) : FaultCause s (.rmem (.reg r) a) .nonWordData
  | callTop (a : Operand) (la : a.legalValue = true) (h : Config.memSlots ≤ s.pc.toNat + 2) : FaultCause s (.call a) .outOfRange

/-- What an instruction does to the state. -/
inductive ExecEffect (s : State) : Instr → State → Prop where
  | fault (i : Instr) (k : FaultKind) (h : FaultCause s i k) : ExecEffect s i (s.takeFault k (some i.opcode.slot))
  | write (i : Instr) (r : RegIdx) (v : Word) (hw : i.wellFormed = true) (hd : i.operands.head? = some (.reg r))
      (hr : i.opcode.roles.head? = some .dest) (hp : i.opcode ≠ .pop) (hi : i.opcode ≠ .inp) :
      ExecEffect s i ((s.setReg r v).advance i.length)
  | pop (r : RegIdx) (v : Word) (rest : List Word) (h : s.stack = v :: rest) :
      ExecEffect s (.pop (.reg r)) ((State.setReg { s with stack := rest } r v).advance 2)
  | inp (r : RegIdx) (b : Byte) (rest : List Byte) (h : s.inq = b :: rest) :
      ExecEffect s (.inp (.reg r)) ((State.setReg { s with inq := rest } r (byteToWord b)).advance 2)
  | starved (r : RegIdx) (h : s.inq = []) : ExecEffect s (.inp (.reg r)) s.suspend
  | push (a : Operand) (v : Word) (ha : s.val a = .ok v) (la : a.legalValue = true) :
      ExecEffect s (.push a) ((s.push v).advance 2)
  | jump (i : Instr) (t : Word) (hw : i.wellFormed = true) (h : i.opcode ∈ [Opcode.jmp, .jt, .jf]) :
      ExecEffect s i (s.jumpTo t)
  | fall (i : Instr) (hw : i.wellFormed = true) (h : i.opcode ∈ [Opcode.jt, .jf, .noop]) :
      ExecEffect s i (s.advance i.length)
  | store (a b : Operand) (ea v : Word) (m : Memory) (ha : s.val a = .ok ea) (hb : s.val b = .ok v)
      (la : a.legalValue = true) (lb : b.legalValue = true) (hm : memWrite s.mem ea.toNat v = some m) :
      ExecEffect s (.wmem a b) (State.advance { s with mem := m } 3)
  | call (a : Operand) (t ra : Word) (ha : s.val a = .ok t) (la : a.legalValue = true)
      (hr : returnAddress s.pc = .ok ra) : ExecEffect s (.call a) ((s.push ra).jumpTo t)
  | ret (t : Word) (rest : List Word) (h : s.stack = t :: rest) :
      ExecEffect s .ret (State.jumpTo { s with stack := rest } t)
  | out (a : Operand) (v : Word) (ha : s.val a = .ok v) (la : a.legalValue = true) :
      ExecEffect s (.out a) ((s.outPut (lowByte v)).advance 2)
  | halt : ExecEffect s .halt s.halt

/-- An address that is a Word always exists (R180). -/
theorem word_lt_memSlots (ea : Word) : ea.toNat < Config.memSlots := ea.isLt

theorem storeWord_ok (m : Memory) (ea v : Word) :
    storeWord m ea v = .ok (m.put ea.toNat (wordToSlot v)) ∧
      memWrite m ea.toNat v = some (m.put ea.toNat (wordToSlot v)) := by
  have h : memWrite m ea.toNat v = some (m.put ea.toNat (wordToSlot v)) :=
    (memWrite_some m _ ea.toNat v).2 ⟨word_lt_memSlots ea, rfl⟩
  exact ⟨by simp [storeWord, h], h⟩

/-- What `rmem` reads (R181): the Word a slot holds, or `NonWordData`; its access is never out of range (R180). -/
theorem loadWord_cases (m : Memory) (ea : Word) :
    ∃ w, memRead m ea.toNat = some w ∧
      ((∃ v, slotAsWord w = some v ∧ loadWord m ea = .ok v) ∨
        (slotAsWord w = none ∧ loadWord m ea = .error .nonWordData)) := by
  obtain ⟨w, hw⟩ := Option.isSome_iff_exists.1 ((memRead_isSome m ea.toNat).2 (word_lt_memSlots ea))
  refine ⟨w, hw, ?_⟩
  cases hs : slotAsWord w with
  | none => exact .inr ⟨rfl, by simp [loadWord, hw, hs]⟩
  | some v => exact .inl ⟨v, rfl, by simp [loadWord, hw, hs]⟩

/-- A slot read as data: its number where that is a Word (R64 c). -/
theorem slotAsWord_cases (w : Raw) :
    (w.toNat < 32768 ∧ ∃ v, slotAsWord w = some v ∧ v.toNat = w.toNat) ∨ (32768 ≤ w.toNat ∧ slotAsWord w = none) := by
  by_cases h : w.toNat < 32768
  · refine .inl ⟨h, BitVec.ofNat 15 w.toNat, by simp [slotAsWord, Config.modulus, h], ?_⟩
    simp only [BitVec.toNat_ofNat]
    omega
  · exact .inr ⟨by omega, by simp [slotAsWord, Config.modulus, h, Config.rmemRawPolicy]⟩

/-- The return address is `p + 2` where that is a Word, and `OutOfRange` otherwise (R191). -/
theorem returnAddress_cases (p : Pc) :
    (∃ ra, returnAddress p = .ok ra ∧ ra.toNat = p.toNat + 2) ∨
      (Config.memSlots ≤ p.toNat + 2 ∧ returnAddress p = .error .outOfRange) := by
  by_cases h : p.toNat + 2 < Config.memSlots
  · refine .inl ⟨BitVec.ofNat 15 (p.toNat + 2), by simp [returnAddress, h], ?_⟩
    simp only [Config.memSlots] at h
    simp only [BitVec.toNat_ofNat]
    omega
  · exact .inr ⟨by omega, by simp [returnAddress, h]⟩

/-- An instruction that writes a total function of one value. -/
theorem unary_effect (s : State) (i : Instr) (f : Word → Word) (d a : Operand)
    (hx : exec i s = unary i.opcode (fun v => .ok (f v)) d a s) (ho : i.operands = [d, a])
    (hw : i.wellFormed = (d.legalDest && a.legalValue)) (hr : i.opcode.roles = [.dest, .value]) :
    ∃ t, exec i s = .next t ∧ ExecEffect s i t := by
  have hl : i.length = 3 := by simp [Instr.length, Opcode.arity, hr]
  obtain ⟨r, va, v, rfl, -, la, -, e⟩ | ⟨r, va, k, -, -, -, hf, -⟩ | ⟨hf, e⟩ :=
    unary_cases i.opcode (fun v => .ok (f v)) d a s
  · exact ⟨_, hx.trans e, hl ▸ .write i r v (by simp [hw, la]) (by simp [ho]) (by simp [hr])
      (by intro h; simp [h, Opcode.roles] at hr) (by intro h; simp [h, Opcode.roles] at hr)⟩
  · cases hf
  · exact ⟨_, hx.trans e, .fault i _ (.illegal i (hw.trans hf))⟩

/-- An instruction that writes a total function of two values. -/
theorem binary_effect (s : State) (i : Instr) (f : Word → Word → Word) (d a b : Operand)
    (hx : exec i s = binary i.opcode (fun v w => .ok (f v w)) d a b s) (ho : i.operands = [d, a, b])
    (hw : i.wellFormed = (d.legalDest && a.legalValue && b.legalValue))
    (hr : i.opcode.roles = [.dest, .value, .value]) :
    ∃ t, exec i s = .next t ∧ ExecEffect s i t := by
  have hl : i.length = 4 := by simp [Instr.length, Opcode.arity, hr]
  obtain ⟨r, va, vb, v, rfl, -, -, la, lb, -, e⟩ | ⟨r, va, vb, k, -, -, -, -, -, hf, -⟩ | ⟨hf, e⟩ :=
    binary_cases i.opcode (fun v w => .ok (f v w)) d a b s
  · exact ⟨_, hx.trans e, hl ▸ .write i r v (by simp [hw, la, lb]) (by simp [ho]) (by simp [hr])
      (by intro h; simp [h, Opcode.roles] at hr) (by intro h; simp [h, Opcode.roles] at hr)⟩
  · cases hf
  · exact ⟨_, hx.trans e, .fault i _ (.illegal i (hw.trans hf))⟩

/-- `mod` writes the remainder or raises `DivisionByZero` (R163). -/
theorem mod_effect (s : State) (d a b : Operand) :
    ∃ t, exec (.mod d a b) s = .next t ∧ ExecEffect s (.mod d a b) t := by
  obtain ⟨r, va, vb, v, rfl, -, -, la, lb, -, e⟩ | ⟨r, va, vb, k, rfl, -, hb, la, lb, hf, e⟩ | ⟨hf, e⟩ :=
    binary_cases .mod remainder d a b s
  · exact ⟨_, e, .write (.mod (.reg r) a b) r v (by simp [Instr.wellFormed, la, lb]) rfl rfl
      (by simp [Instr.opcode]) (by simp [Instr.opcode])⟩
  · by_cases hz : vb = 0
    · subst hz
      simp only [remainder, if_true, Except.error.injEq] at hf
      subst hf
      exact ⟨_, e, .fault _ _ (.modZero r a b la lb hb)⟩
    · rw [remainder, if_neg hz] at hf
      cases hf
  · exact ⟨_, e, .fault _ _ (.illegal _ hf)⟩

/-- `rmem` writes the Word read or raises `NonWordData` (R181). -/
theorem rmem_effect (s : State) (d a : Operand) :
    ∃ t, exec (.rmem d a) s = .next t ∧ ExecEffect s (.rmem d a) t := by
  obtain ⟨r, va, v, rfl, -, la, -, e⟩ | ⟨r, va, k, rfl, ha, la, hf, e⟩ | ⟨hf, e⟩ :=
    unary_cases .rmem (fun ea => loadWord s.mem ea) d a s
  · exact ⟨_, e, .write (.rmem (.reg r) a) r v (by simp [Instr.wellFormed, la]) rfl rfl
      (by simp [Instr.opcode]) (by simp [Instr.opcode])⟩
  · obtain ⟨w, hr, ⟨v, -, hv⟩ | ⟨hs, hk⟩⟩ := loadWord_cases s.mem va
    · simp [hv] at hf
    · simp only [hk, Except.error.injEq] at hf
      subst hf
      exact ⟨_, e, .fault _ _ (.nonWord r a va w ha la hr hs)⟩
  · exact ⟨_, e, .fault _ _ (.illegal _ hf)⟩

/-- A meaning whose first value operand is illegal. -/
theorem illegal_effect (s : State) (i : Instr) (hw : i.wellFormed = false)
    (e : exec i s = .next (s.takeFault .invalidOperandEncoding (some i.opcode.slot))) :
    ∃ t, exec i s = .next t ∧ ExecEffect s i t :=
  ⟨_, e, .fault i _ (.illegal i hw)⟩

theorem push_effect (s : State) (a : Operand) : ∃ t, exec (.push a) s = .next t ∧ ExecEffect s (.push a) t := by
  obtain ⟨v, ha, la⟩ | ⟨ha, la⟩ := val_cases s a
  · exact ⟨_, by simp [exec, execPush, ha], .push a v ha la⟩
  · exact illegal_effect s _ la (by simp [exec, execPush, ha, Instr.opcode])

theorem pop_effect (s : State) (d : Operand) : ∃ t, exec (.pop d) s = .next t ∧ ExecEffect s (.pop d) t := by
  obtain ⟨r, rfl⟩ | ⟨hd, ld⟩ := dst_cases d
  · cases hs : s.stack with
    | nil => exact ⟨_, by simp [exec, execPop, pop_nil s hs]; rfl, .fault _ _ (.popEmpty r hs)⟩
    | cons v rest => exact ⟨_, by simp [exec, execPop, pop_cons s v rest hs], .pop r v rest hs⟩
  · exact illegal_effect s _ ld (by simp [exec, execPop, hd, Instr.opcode])

theorem jmp_effect (s : State) (a : Operand) : ∃ t, exec (.jmp a) s = .next t ∧ ExecEffect s (.jmp a) t := by
  obtain ⟨v, ha, la⟩ | ⟨ha, la⟩ := val_cases s a
  · exact ⟨_, by simp [exec, execJmp, ha], .jump _ v la (by simp [Instr.opcode])⟩
  · exact illegal_effect s _ la (by simp [exec, execJmp, ha, Instr.opcode])

theorem jt_effect (s : State) (a b : Operand) : ∃ t, exec (.jt a b) s = .next t ∧ ExecEffect s (.jt a b) t := by
  obtain ⟨c, ha, la⟩ | ⟨ha, la⟩ := val_cases s a
  · obtain ⟨v, hb, lb⟩ | ⟨hb, lb⟩ := val_cases s b
    · have hw : (Instr.jt a b).wellFormed = true := by simp [Instr.wellFormed, la, lb]
      by_cases h : condHolds c = true
      · exact ⟨_, by simp [exec, execJt, ha, hb, h], .jump _ v hw (by simp [Instr.opcode])⟩
      · exact ⟨_, by simp [exec, execJt, ha, hb, h]; rfl, .fall _ hw (by simp [Instr.opcode])⟩
    · exact illegal_effect s _ (by simp [Instr.wellFormed, lb]) (by simp [exec, execJt, ha, hb, Instr.opcode])
  · exact illegal_effect s _ (by simp [Instr.wellFormed, la]) (by simp [exec, execJt, ha, Instr.opcode])

theorem jf_effect (s : State) (a b : Operand) : ∃ t, exec (.jf a b) s = .next t ∧ ExecEffect s (.jf a b) t := by
  obtain ⟨c, ha, la⟩ | ⟨ha, la⟩ := val_cases s a
  · obtain ⟨v, hb, lb⟩ | ⟨hb, lb⟩ := val_cases s b
    · have hw : (Instr.jf a b).wellFormed = true := by simp [Instr.wellFormed, la, lb]
      by_cases h : condHolds c = true
      · exact ⟨_, by simp [exec, execJf, ha, hb, h]; rfl, .fall _ hw (by simp [Instr.opcode])⟩
      · exact ⟨_, by simp [exec, execJf, ha, hb, h], .jump _ v hw (by simp [Instr.opcode])⟩
    · exact illegal_effect s _ (by simp [Instr.wellFormed, lb]) (by simp [exec, execJf, ha, hb, Instr.opcode])
  · exact illegal_effect s _ (by simp [Instr.wellFormed, la]) (by simp [exec, execJf, ha, Instr.opcode])

theorem wmem_effect (s : State) (a b : Operand) : ∃ t, exec (.wmem a b) s = .next t ∧ ExecEffect s (.wmem a b) t := by
  obtain ⟨ea, ha, la⟩ | ⟨ha, la⟩ := val_cases s a
  · obtain ⟨v, hb, lb⟩ | ⟨hb, lb⟩ := val_cases s b
    · obtain ⟨hs, hm⟩ := storeWord_ok s.mem ea v
      exact ⟨_, by simp [exec, execWmem, ha, hb, hs], .store a b ea v _ ha hb la lb hm⟩
    · exact illegal_effect s _ (by simp [Instr.wellFormed, lb]) (by simp [exec, execWmem, ha, hb, Instr.opcode])
  · exact illegal_effect s _ (by simp [Instr.wellFormed, la]) (by simp [exec, execWmem, ha, Instr.opcode])

theorem call_effect (s : State) (a : Operand) : ∃ t, exec (.call a) s = .next t ∧ ExecEffect s (.call a) t := by
  obtain ⟨v, ha, la⟩ | ⟨ha, la⟩ := val_cases s a
  · obtain ⟨ra, hr, -⟩ | ⟨hp, hr⟩ := returnAddress_cases s.pc
    · exact ⟨_, by simp [exec, execCall, ha, hr], .call a v ra ha la hr⟩
    · exact ⟨_, by simp [exec, execCall, ha, hr]; rfl, .fault _ _ (.callTop a la hp)⟩
  · exact illegal_effect s _ la (by simp [exec, execCall, ha, Instr.opcode])

theorem ret_effect (s : State) : ∃ t, exec .ret s = .next t ∧ ExecEffect s .ret t := by
  cases hs : s.stack with
  | nil => exact ⟨_, by simp [exec, execRet, pop_nil s hs]; rfl, .fault _ _ (.retEmpty hs)⟩
  | cons v rest => exact ⟨_, by simp [exec, execRet, pop_cons s v rest hs], .ret v rest hs⟩

theorem out_effect (s : State) (a : Operand) : ∃ t, exec (.out a) s = .next t ∧ ExecEffect s (.out a) t := by
  obtain ⟨v, ha, la⟩ | ⟨ha, la⟩ := val_cases s a
  · exact ⟨_, by simp [exec, execOut, ha], .out a v ha la⟩
  · exact illegal_effect s _ la (by simp [exec, execOut, ha, Instr.opcode])

theorem inp_effect (s : State) (d : Operand) : ∃ t, exec (.inp d) s = .next t ∧ ExecEffect s (.inp d) t := by
  obtain ⟨r, rfl⟩ | ⟨hd, ld⟩ := dst_cases d
  · cases hs : s.inq with
    | nil => exact ⟨_, by simp [exec, execIn, inTake_nil s hs], .starved r hs⟩
    | cons b rest => exact ⟨_, by simp [exec, execIn, inTake_cons s b rest hs], .inp r b rest hs⟩
  · exact illegal_effect s _ ld (by simp [exec, execIn, hd, Instr.opcode])

/-- Every instruction, in every state, answers a next state that is one of the effects. -/
theorem exec_effect (i : Instr) (s : State) : ∃ t, exec i s = .next t ∧ ExecEffect s i t := by
  cases i with
  | halt => exact ⟨_, rfl, .halt⟩
  | set d a => exact unary_effect s (.set d a) _ d a rfl rfl rfl rfl
  | push a => exact push_effect s a
  | pop d => exact pop_effect s d
  | eq d a b => exact binary_effect s (.eq d a b) _ d a b rfl rfl rfl rfl
  | gt d a b => exact binary_effect s (.gt d a b) _ d a b rfl rfl rfl rfl
  | jmp a => exact jmp_effect s a
  | jt a b => exact jt_effect s a b
  | jf a b => exact jf_effect s a b
  | add d a b => exact binary_effect s (.add d a b) _ d a b rfl rfl rfl rfl
  | mult d a b => exact binary_effect s (.mult d a b) _ d a b rfl rfl rfl rfl
  | mod d a b => exact mod_effect s d a b
  | and d a b => exact binary_effect s (.and d a b) _ d a b rfl rfl rfl rfl
  | or d a b => exact binary_effect s (.or d a b) _ d a b rfl rfl rfl rfl
  | not d a => exact unary_effect s (.not d a) _ d a rfl rfl rfl rfl
  | rmem d a => exact rmem_effect s d a
  | wmem a b => exact wmem_effect s a b
  | call a => exact call_effect s a
  | ret => exact ret_effect s
  | out a => exact out_effect s a
  | inp d => exact inp_effect s d
  | noop => exact ⟨_, rfl, .fall .noop rfl (by simp [Instr.opcode])⟩

/-- The inversion of `exec`. -/
theorem exec_next {i : Instr} {s t : State} (h : exec i s = .next t) : ExecEffect s i t := by
  obtain ⟨u, hu, e⟩ := exec_effect i s
  cases hu.symm.trans h
  exact e

end Sys2Proof.Machine
end

