-- ==== Sys2Proof/Laws/PerInstr.lean ====
section
/-! SUPPORT. A statement about every instruction as syntax, one lemma per constructor.
-/
namespace Sys2Proof.Laws.OperandsFitRoles

/-- An instruction has one operand per role of its opcode, and is well-formed exactly when every operand is
legal in its role (spec/30_encoding.md R81, R86, R88). -/
def Statement (i : Instr) : Prop :=
  i.operands.length = i.opcode.arity ∧
    i.wellFormed = (i.opcode.roles.zip i.operands).all fun (r, o) => r.accepts o

theorem halt : Statement .halt := ⟨operands_length _, wellFormed_eq _⟩
theorem set (d a : Operand) : Statement (.set d a) := ⟨operands_length _, wellFormed_eq _⟩
theorem push (a : Operand) : Statement (.push a) := ⟨operands_length _, wellFormed_eq _⟩
theorem pop (d : Operand) : Statement (.pop d) := ⟨operands_length _, wellFormed_eq _⟩
theorem eq (d a b : Operand) : Statement (.eq d a b) := ⟨operands_length _, wellFormed_eq _⟩
theorem gt (d a b : Operand) : Statement (.gt d a b) := ⟨operands_length _, wellFormed_eq _⟩
theorem jmp (a : Operand) : Statement (.jmp a) := ⟨operands_length _, wellFormed_eq _⟩
theorem jt (a b : Operand) : Statement (.jt a b) := ⟨operands_length _, wellFormed_eq _⟩
theorem jf (a b : Operand) : Statement (.jf a b) := ⟨operands_length _, wellFormed_eq _⟩
theorem add (d a b : Operand) : Statement (.add d a b) := ⟨operands_length _, wellFormed_eq _⟩
theorem mult (d a b : Operand) : Statement (.mult d a b) := ⟨operands_length _, wellFormed_eq _⟩
theorem mod (d a b : Operand) : Statement (.mod d a b) := ⟨operands_length _, wellFormed_eq _⟩
theorem and (d a b : Operand) : Statement (.and d a b) := ⟨operands_length _, wellFormed_eq _⟩
theorem or (d a b : Operand) : Statement (.or d a b) := ⟨operands_length _, wellFormed_eq _⟩
theorem not (d a : Operand) : Statement (.not d a) := ⟨operands_length _, wellFormed_eq _⟩
theorem rmem (d a : Operand) : Statement (.rmem d a) := ⟨operands_length _, wellFormed_eq _⟩
theorem wmem (a b : Operand) : Statement (.wmem a b) := ⟨operands_length _, wellFormed_eq _⟩
theorem call (a : Operand) : Statement (.call a) := ⟨operands_length _, wellFormed_eq _⟩
theorem ret : Statement .ret := ⟨operands_length _, wellFormed_eq _⟩
theorem out (a : Operand) : Statement (.out a) := ⟨operands_length _, wellFormed_eq _⟩
theorem inp (d : Operand) : Statement (.inp d) := ⟨operands_length _, wellFormed_eq _⟩
theorem noop : Statement .noop := ⟨operands_length _, wellFormed_eq _⟩

end Sys2Proof.Laws.OperandsFitRoles
end

