-- ==== Sys2Proof/Laws/Step.lean ====
section
/-! SUPPORT. Everything a step can do, said once (spec/40_execution_cycle.md R110 to R113).
-/
namespace Sys2Proof.Machine

/-- Slots of a list read at consecutive addresses from `a`. -/
theorem slotsFrom_take (m : Memory) (a n : Nat) (w : Raw) (rest : List Raw) (h : slotsFrom m a n = w :: rest) :
    memRead m a = some w := by
  have := slotsFrom_getElem? m n a 0
  rw [h] at this
  cases n with
  | zero => simp at this
  | succ n => simpa using this.symm

/-- The ways the fetch and decode phases end, with what they read (R111 to R113, R93). -/
inductive FetchCase (s : State) : Decoded → Prop where
  /-- `pc` is outside memory. -/
  | outside (h : Config.memSlots ≤ s.pc.toNat) : FetchCase s .noOpcodeSlot
  /-- The opcode slot is unknown. -/
  | unknown (w : Raw) (h : memRead s.mem s.pc.toNat = some w) (hw : 21 < w.toNat) : FetchCase s (.unknownOpcode w)
  /-- The instruction is there whole. -/
  | whole (i : Instr) (h : memRead s.mem s.pc.toNat = some i.opcode.slot)
      (hf : s.pc.toNat + i.length ≤ Config.memSlots)
      (ho : i.operands = ((slotsFrom s.mem (s.pc.toNat + 1) 3).take i.opcode.arity).map classify) :
      FetchCase s (.instr i)
  /-- Memory ends before the last operand slot. -/
  | short (op : Opcode) (h : memRead s.mem s.pc.toNat = some op.slot)
      (hf : Config.memSlots < s.pc.toNat + 1 + op.arity) :
      FetchCase s (.truncated op ((slotsFrom s.mem (s.pc.toNat + 1) 3).map classify))

theorem arity_le (op : Opcode) : op.arity ≤ 3 := by cases op <;> decide

theorem fetchDecode_cases (s : State) : FetchCase s (fetchDecode s) := by
  unfold fetchDecode
  cases hm : memRead s.mem s.pc.toNat with
  | none =>
    have : slotsFrom s.mem s.pc.toNat 4 = [] := by simp [slotsFrom, hm]
    rw [this]
    exact .outside ((memRead_none _ _).1 hm)
  | some w =>
    have hs : slotsFrom s.mem s.pc.toNat 4 = w :: slotsFrom s.mem (s.pc.toNat + 1) 3 := by simp [slotsFrom, hm]
    have hlt := memRead_lt hm
    have hlen := slotsFrom_length s.mem 3 (s.pc.toNat + 1)
    rw [hs]
    obtain ⟨h, -⟩ | ⟨x, rest, h, hx, e⟩ | ⟨i, rest, h, ho, hl, e⟩ | ⟨op, rest, h, hl, e⟩ :=
      decode_cases (w :: slotsFrom s.mem (s.pc.toNat + 1) 3)
    · simp at h
    · obtain ⟨rfl, rfl⟩ := List.cons.inj h
      rw [e]
      exact .unknown w hm hx
    · obtain ⟨rfl, rfl⟩ := List.cons.inj h
      rw [e]
      refine .whole i hm ?_ ho
      simp only [Instr.length]
      omega
    · obtain ⟨rfl, rfl⟩ := List.cons.inj h
      rw [e]
      have := arity_le op
      exact .short op hm (by omega)

theorem fetchDecode_instr {s : State} {i : Instr} (h : fetchDecode s = .instr i) :
    memRead s.mem s.pc.toNat = some i.opcode.slot ∧ s.pc.toNat + i.length ≤ Config.memSlots ∧
      i.operands = ((slotsFrom s.mem (s.pc.toNat + 1) 3).take i.opcode.arity).map classify := by
  have c := fetchDecode_cases s
  rw [h] at c
  cases c with
  | whole _ h hf ho => exact ⟨h, hf, ho⟩

/-- The ways a step from a state that can step ends. -/
inductive StepCase (s : State) : State → Prop where
  | outside (h : Config.memSlots ≤ s.pc.toNat) : StepCase s (s.takeFault .outOfRange none)
  | unknown (w : Raw) (h : memRead s.mem s.pc.toNat = some w) (hw : 21 < w.toNat) :
      StepCase s (s.takeFault .unknownOpcode (some w))
  | short (op : Opcode) (h : memRead s.mem s.pc.toNat = some op.slot)
      (hf : Config.memSlots < s.pc.toNat + 1 + op.arity) :
      StepCase s (s.takeFault (truncatedFault op ((slotsFrom s.mem (s.pc.toNat + 1) 3).map classify)) (some op.slot))
  | run (i : Instr) (t : State) (hd : fetchDecode s = .instr i) (hx : exec i s = .next t)
      (he : ExecEffect s i t) : StepCase s t

/-- Every step answers a next state; a terminal state is left as it is (R110). -/
theorem step_cases (s : State) :
    (s.run.steps = false ∧ step s = .next s) ∨ (s.run.steps = true ∧ ∃ t, step s = .next t ∧ StepCase s t) := by
  cases hr : s.run.steps with
  | false => exact .inl ⟨rfl, by simp [step, hr]⟩
  | true =>
    right
    refine ⟨rfl, ?_⟩
    have c := fetchDecode_cases s
    cases hd : fetchDecode s with
    | instr i =>
      obtain ⟨t, hx, he⟩ := exec_effect i s
      exact ⟨t, by simp [step, hr, hd, hx], .run i t hd hx he⟩
    | noOpcodeSlot =>
      rw [hd] at c
      cases c with
      | outside h => exact ⟨_, by simp [step, hr, hd], .outside h⟩
    | unknownOpcode w =>
      rw [hd] at c
      cases c with
      | unknown _ h hw => exact ⟨_, by simp [step, hr, hd], .unknown w h hw⟩
    | truncated op got =>
      rw [hd] at c
      cases c with
      | short _ h hf => exact ⟨_, by simp [step, hr, hd], .short op h hf⟩

/-- The inversion of `step`, from a state that can step. -/
theorem step_next {s t : State} (hr : s.run.steps = true) (h : step s = .next t) : StepCase s t := by
  obtain ⟨h', -⟩ | ⟨-, u, hu, c⟩ := step_cases s
  · simp [hr] at h'
  · cases hu.symm.trans h
    exact c

end Sys2Proof.Machine
end

