-- ==== Sys2Proof/Laws/Run.lean ====
section
/-! SUPPORT. Runs (spec/48_host_operations.md R232): how `perform` unfolds, and what a step does in a state with another
log, record and run state and with more input waiting (spec/40_execution_cycle.md R119).
-/
namespace Sys2Proof.Machine

/-! ### perform -/

@[simp] theorem perform_nil (s : State) : perform [] s = .next s := rfl

theorem perform_cons {x : HostAction} {s t : State} (h : x.act s = .next t) (xs : List HostAction) :
    perform (x :: xs) s = perform xs t := by simp only [perform, h]

/-- A run's moves are steps and supplies of bytes. -/
theorem inRun_cases {x : HostAction} (h : x.inRun = true) :
    x = .step ∨ ∃ bs, x = .supply bs ∧ (bs.all fun b => decide (b < 256)) = true := by
  cases x with
  | step => exact .inl rfl
  | supply bs => exact .inr ⟨bs, rfl, h⟩
  | _ => cases h

/-- What a supply of bytes does (R224). -/
theorem supply_next {bs : List Nat} (h : (bs.all fun b => decide (b < 256)) = true) (s : State) :
    supply bs s = .next { s with
      inq := s.inq ++ bs.map (BitVec.ofNat 8)
      run := if s.run == .suspended && !bs.isEmpty then .running else s.run } := by
  rw [supply, if_pos h]

/-- Every move of a run answers a next state. -/
theorem inRun_next {x : HostAction} (h : x.inRun = true) (s : State) : ∃ t, x.act s = .next t := by
  obtain rfl | ⟨bs, rfl, hb⟩ := inRun_cases h
  · obtain ⟨-, h⟩ | ⟨-, t, h, -⟩ := step_cases s
    · exact ⟨s, h⟩
    · exact ⟨t, h⟩
  · exact ⟨_, supply_next hb s⟩

/-- A run from any state, under any behaviour, reaches a state. -/
theorem run_total (xs : List HostAction) : ∀ s, xs.all HostAction.inRun = true → ∃ t, Run s xs t := by
  induction xs with
  | nil => exact fun s h => ⟨s, h, rfl⟩
  | cons x xs ih =>
    intro s h
    have hx := h
    simp only [List.all_cons, Bool.and_eq_true] at hx
    obtain ⟨u, hu⟩ := inRun_next hx.1 s
    obtain ⟨t, -, ht⟩ := ih u hx.2
    exact ⟨t, h, (perform_cons hu xs).trans ht⟩

/-- The first move of a run, and the run from there. -/
theorem run_cons {x : HostAction} {xs : List HostAction} {s t : State} (h : Run s (x :: xs) t) :
    x.inRun = true ∧ ∃ u, x.act s = .next u ∧ Run u xs t := by
  obtain ⟨ha, hp⟩ := h
  simp only [List.all_cons, Bool.and_eq_true] at ha
  obtain ⟨u, hu⟩ := inRun_next ha.1 s
  exact ⟨ha.1, u, hu, ha.2, (perform_cons hu xs).symm.trans hp⟩

/-- The first of a number of bare steps, and the rest. -/
theorem runsTo_succ {s u : State} (h : step s = .next u) (n : Nat) (t : State) : RunsTo s (n + 1) t ↔ RunsTo u n t := by
  have : Sys2Proof.core.step s = .next u := h
  simp only [RunsTo, Host.Core.run, this]

/-- Bare steps are a run whose behaviour is steps. -/
theorem runsTo_iff_run (n : Nat) : ∀ s t, RunsTo s n t ↔ Run s (List.replicate n .step) t := by
  induction n with
  | zero => exact fun s t => ⟨fun h => ⟨rfl, h⟩, fun h => h.2⟩
  | succ n ih =>
    intro s t
    obtain ⟨u, hu⟩ := inRun_next (x := .step) rfl s
    rw [runsTo_succ hu, ih]
    refine ⟨fun h => ⟨by simp [HostAction.inRun], (perform_cons hu _).trans h.2⟩, fun h => ?_⟩
    obtain ⟨-, v, hv, hr⟩ := run_cons h
    cases hu.symm.trans hv
    exact hr

/-! ### A step among other control state and with more input -/

/-- `s` with another run state, record and log, and `more` behind its input queue. -/
def State.alter (s : State) (r : RunState) (f : Option FaultRecord) (o more : List Byte) : State :=
  { s with run := r, frec := f, outlog := o, inq := s.inq ++ more }

variable (s : State) (r : RunState) (f : Option FaultRecord) (o more : List Byte)

@[simp] theorem alter_regs : (s.alter r f o more).regs = s.regs := rfl
@[simp] theorem alter_pc : (s.alter r f o more).pc = s.pc := rfl
@[simp] theorem alter_stack : (s.alter r f o more).stack = s.stack := rfl
@[simp] theorem alter_mem : (s.alter r f o more).mem = s.mem := rfl
@[simp] theorem alter_run : (s.alter r f o more).run = r := rfl
@[simp] theorem alter_frec : (s.alter r f o more).frec = f := rfl
@[simp] theorem alter_inq : (s.alter r f o more).inq = s.inq ++ more := rfl
@[simp] theorem alter_outlog : (s.alter r f o more).outlog = o := rfl
@[simp] theorem alter_val (a : Operand) : (s.alter r f o more).val a = s.val a := by cases a <;> rfl

/-- An outcome in the altered state is the one that answered `t`, altered: the log has the same bytes behind it, and the
record is the new one if there is a new one. -/
def Alike (t : State) (out : Host.Outcome State Fault Refusal) : Prop :=
  ∃ bs, t.outlog = s.outlog ++ bs ∧
    out = .next (t.alter t.run (if t.run = .faulted then t.frec else f) (o ++ bs) more)

theorem unary_alike (op : Opcode) (g : Word → Except FaultKind Word) (d a : Operand) {t : State}
    (h : unary op g d a s = .next t) : Alike s f o more t (unary op g d a (s.alter r f o more)) := by
  unfold unary at h ⊢
  cases hd : dst d <;> cases ha : s.val a <;> simp [hd, ha] at h ⊢
  case ok.ok q va => cases hg : g va <;> simp [hg] at h ⊢ <;> subst h <;> exact ⟨[], by simp [State.alter]; rfl⟩
  all_goals subst h; exact ⟨[], by simp [State.alter]; rfl⟩

theorem binary_alike (op : Opcode) (g : Word → Word → Except FaultKind Word) (d a b : Operand) {t : State}
    (h : binary op g d a b s = .next t) : Alike s f o more t (binary op g d a b (s.alter r f o more)) := by
  unfold binary at h ⊢
  cases hd : dst d <;> cases ha : s.val a <;> cases hb : s.val b <;> simp [hd, ha, hb] at h ⊢
  case ok.ok.ok q va vb => cases hg : g va vb <;> simp [hg] at h ⊢ <;> subst h <;> exact ⟨[], by simp [State.alter]; rfl⟩
  all_goals subst h; exact ⟨[], by simp [State.alter]; rfl⟩

/-- Every instruction but a starved `in` does alike; that one too where no input is added. -/
theorem exec_alike (i : Instr) {t : State} (h : exec i s = .next t) (hs : t.run = .suspended → more = []) :
    Alike s f o more t (exec i (s.alter r f o more)) := by
  cases i with
  | halt => cases h; exact ⟨[], by simp [State.alter]; rfl⟩
  | noop => cases h; exact ⟨[], by simp [State.alter]; rfl⟩
  | set d a => exact unary_alike s r f o more _ _ d a h
  | not d a => exact unary_alike s r f o more _ _ d a h
  | rmem d a => exact unary_alike s r f o more _ _ d a h
  | eq d a b => exact binary_alike s r f o more _ _ d a b h
  | gt d a b => exact binary_alike s r f o more _ _ d a b h
  | add d a b => exact binary_alike s r f o more _ _ d a b h
  | mult d a b => exact binary_alike s r f o more _ _ d a b h
  | mod d a b => exact binary_alike s r f o more _ _ d a b h
  | and d a b => exact binary_alike s r f o more _ _ d a b h
  | or d a b => exact binary_alike s r f o more _ _ d a b h
  | push a =>
    simp only [exec, execPush, alter_val] at h ⊢
    cases ha : s.val a <;> simp [ha] at h ⊢ <;> subst h <;> exact ⟨[], by simp [State.alter]; rfl⟩
  | jmp a =>
    simp only [exec, execJmp, alter_val] at h ⊢
    cases ha : s.val a <;> simp [ha] at h ⊢ <;> subst h <;> exact ⟨[], by simp [State.alter]; rfl⟩
  | out a =>
    simp only [exec, execOut, alter_val] at h ⊢
    cases ha : s.val a with
    | error k => simp [ha] at h ⊢; subst h; exact ⟨[], by simp [State.alter]; rfl⟩
    | ok v => simp [ha] at h ⊢; subst h; exact ⟨[lowByte v], by simp [State.alter]; rfl⟩
  | call a =>
    simp only [exec, execCall, alter_val, alter_pc] at h ⊢
    cases ha : s.val a <;> cases hr : returnAddress s.pc <;> simp [ha, hr] at h ⊢ <;> subst h <;> exact ⟨[], by simp [State.alter]; rfl⟩
  | ret =>
    cases hq : s.stack with
    | nil =>
      simp [exec, execRet, pop_nil s hq, pop_nil (s.alter r f o more) hq] at h ⊢; subst h; exact ⟨[], by simp [State.alter]; rfl⟩
    | cons v rest =>
      simp [exec, execRet, pop_cons s v rest hq, pop_cons (s.alter r f o more) v rest hq] at h ⊢; subst h; exact ⟨[], by simp [State.alter]; rfl⟩
  | pop d =>
    cases hd : dst d with
    | error k => simp [exec, execPop, hd] at h ⊢; subst h; exact ⟨[], by simp [State.alter]; rfl⟩
    | ok q =>
      cases hq : s.stack with
      | nil =>
        simp [exec, execPop, hd, pop_nil s hq, pop_nil (s.alter r f o more) hq] at h ⊢; subst h; exact ⟨[], by simp [State.alter]; rfl⟩
      | cons v rest =>
        simp [exec, execPop, hd, pop_cons s v rest hq, pop_cons (s.alter r f o more) v rest hq] at h ⊢; subst h; exact ⟨[], by simp [State.alter]; rfl⟩
  | inp d =>
    cases hd : dst d with
    | error k => simp [exec, execIn, hd] at h ⊢; subst h; exact ⟨[], by simp [State.alter]; rfl⟩
    | ok q =>
      cases hq : s.inq with
      | nil =>
        simp [exec, execIn, hd, inTake_nil s hq] at h
        subst h
        obtain rfl := hs rfl
        simp [exec, execIn, hd, inTake_nil (s.alter r f o []) (by simp [hq])]
        exact ⟨[], by simp [State.alter]; rfl⟩
      | cons b rest =>
        simp [exec, execIn, hd, inTake_cons s b rest hq,
          inTake_cons (s.alter r f o more) b (rest ++ more) (by simp [hq])] at h ⊢
        subst h; exact ⟨[], by simp [State.alter]; rfl⟩
  | jt a b =>
    simp only [exec, execJt, alter_val] at h ⊢
    cases ha : s.val a <;> cases hb : s.val b <;> simp [ha, hb] at h ⊢ <;> subst h <;> (try split) <;> exact ⟨[], by simp [State.alter]; rfl⟩
  | jf a b =>
    simp only [exec, execJf, alter_val] at h ⊢
    cases ha : s.val a <;> cases hb : s.val b <;> simp [ha, hb] at h ⊢ <;> subst h <;> (try split) <;> exact ⟨[], by simp [State.alter]; rfl⟩
  | wmem a b =>
    simp only [exec, execWmem, alter_val, alter_mem] at h ⊢
    cases ha : s.val a with
    | error k => simp [ha] at h ⊢; subst h; exact ⟨[], by simp [State.alter]; rfl⟩
    | ok ea =>
      cases hb : s.val b with
      | error k => simp [ha, hb] at h ⊢; subst h; exact ⟨[], by simp [State.alter]; rfl⟩
      | ok v => cases hm : storeWord s.mem ea v <;> simp [ha, hb, hm] at h ⊢ <;> subst h <;> exact ⟨[], by simp [State.alter]; rfl⟩

/-- A step from a state that can step does alike in every other run state that can (R28; decision D22, log entry 28), with
any log and record; and with more input waiting, unless it suspends. -/
theorem step_alike {t : State} (hs : s.run.steps = true) (hr : r.steps = true) (h : step s = .next t)
    (hm : t.run = .suspended → more = []) : Alike s f o more t (step (s.alter r f o more)) := by
  have hd : fetchDecode (s.alter r f o more) = fetchDecode s := rfl
  rw [step, if_pos hs] at h
  rw [step, if_pos (show (s.alter r f o more).run.steps = true from hr), hd]
  cases hf : fetchDecode s with
  | instr i => rw [hf] at h; exact exec_alike s r f o more i h hm
  | noOpcodeSlot => rw [hf] at h; cases h; exact ⟨[], by simp [State.alter]; rfl⟩
  | unknownOpcode w => rw [hf] at h; cases h; exact ⟨[], by simp [State.alter]; rfl⟩
  | truncated op got => rw [hf] at h; cases h; exact ⟨[], by simp [State.alter]; rfl⟩

end Sys2Proof.Machine
end

