-- ==== Sys2Proof/Machine/Assembly.lean ====
section
/-! DEFINITION. The assembler notation of spec/30_encoding.md R90: a lower-case mnemonic and its operands in
slot order, separated by spaces; registers `rN`, literals in decimal. Assembly to slots (R91) is `encode`.
-/
namespace Sys2Proof.Machine

/-- The mnemonics (R90). -/
def mnemonic : Opcode → String
  | .halt => "halt"
  | .set => "set"
  | .push => "push"
  | .pop => "pop"
  | .eq => "eq"
  | .gt => "gt"
  | .jmp => "jmp"
  | .jt => "jt"
  | .jf => "jf"
  | .add => "add"
  | .mult => "mult"
  | .mod => "mod"
  | .and => "and"
  | .or => "or"
  | .not => "not"
  | .rmem => "rmem"
  | .wmem => "wmem"
  | .call => "call"
  | .ret => "ret"
  | .out => "out"
  | .inp => "in"
  | .noop => "noop"

/-- An operand in assembler notation (R90); an invalid slot as the number it holds (decision D21). -/
def operandText : Operand → String
  | .lit v => toString v.toNat
  | .reg r => "r" ++ toString r.val
  | .invalid w => ".word " ++ toString w.toNat

/-- An instruction in assembler notation (R90). -/
def asmText (i : Instr) : String := String.intercalate " " (mnemonic i.opcode :: i.operands.map operandText)

end Sys2Proof.Machine
end

