-- ==== Sys2Proof/Tests/Slice0.lean ====
section
/-! SUPPORT. Tests and witnesses. Expected results come from spec/95_test_vectors.md (S1 to S10, V40 to V48, named
at each test) and from the encodings of spec/30_encoding.md. Each `witness_<Name>` meets the hypotheses of
`Obligations.<Name>`, one conjunct or theorem per clause, at boundary values.
-/
namespace Sys2Proof.Tests

open Sys2Proof.Machine Sys2Proof.Claims

/-! ### Helpers -/

/-- Reset, with slots laid from `p` up and `pc` at `p`. -/
def at' (p : Nat) (ws : List Raw) : State :=
  { State.reset with mem := State.reset.mem.putAll p ws, pc := BitVec.ofNat 16 p }

/-- The state an outcome answers, if it is one. -/
def nextOf : Host.Outcome State Fault Refusal → Option State
  | .next t => some t
  | .fault _ | .refused _ => none

/-- The state after one step. -/
def after (s : State) : State := (nextOf (step s)).getD s

theorem step_after (s : State) : step s = .next (after s) := by
  obtain ⟨-, h⟩ | ⟨-, t, h, -⟩ := step_cases s <;> simp [after, nextOf, h]

/-- The state after an instruction. -/
def ran (i : Instr) (s : State) : State := (nextOf (exec i s)).getD s

theorem exec_ran (i : Instr) (s : State) : exec i s = .next (ran i s) := by
  obtain ⟨t, h, -⟩ := exec_effect i s
  simp [ran, nextOf, h]

/-- The state a run reaches. -/
def reached (s : State) (xs : List HostAction) : State := (nextOf (perform xs s)).getD s

theorem run_reached {xs : List HostAction} (h : xs.all HostAction.inRun = true) (s : State) : Run s xs (reached s xs) := by
  obtain ⟨t, ht⟩ := run_total xs s h
  have : reached s xs = t := by simp only [reached, ht.2, nextOf, Option.getD_some]
  rwa [this]

/-- `SlotsAt`, by evaluation. -/
def slotsAt? (m : Memory) (a : Nat) (ws : List Raw) : Bool :=
  (List.range ws.length).all fun n => memRead m (a + n) == ws[n]?

theorem slotsAt_of {m : Memory} {a : Nat} {ws : List Raw} (h : slotsAt? m a ws = true) : SlotsAt m a ws := by
  intro n w hw
  have hn : n < ws.length := (List.getElem?_eq_some_iff.1 hw).1
  have := List.all_eq_true.1 h n (List.mem_range.2 hn)
  rw [eq_of_beq this, hw]

/-- The fault record as the vectors print it: kind, address, opcode context. -/
def fault (s : State) : Option (FaultKind × Nat × Option Nat) :=
  s.frec.map fun r => (r.kind, r.fpc.toNat, r.fop.map BitVec.toNat)

/-! ### WellFormed: an ill-formed term for each check (R83, R84) -/

theorem test_literal_destination_refused : (Instr.set (.lit 0) (.lit 5)).wellFormed = false := by decide
theorem test_invalid_destination_refused : (Instr.pop (.invalid 0x8008)).wellFormed = false := by decide
theorem test_invalid_value_refused : (Instr.push (.invalid 0xFFFF)).wellFormed = false := by decide
theorem test_invalid_second_value_refused : (Instr.jt (.lit 0) (.invalid 40000)).wellFormed = false := by decide
theorem test_invalid_third_value_refused :
    (Instr.add (.reg 0) (.lit 1) (.invalid 0x8008)).wellFormed = false := by decide
theorem test_every_form_has_a_legal_term :
    [Instr.halt, .set (.reg 0) (.lit 1), .push (.reg 7), .pop (.reg 0), .eq (.reg 0) (.reg 1) (.lit 0), .ret,
      .wmem (.lit 0) (.lit 32767), .inp (.reg 3), .noop].all Instr.wellFormed = true := by decide

/-! ### Decoding: words written out from R81, R82, R85 -/

/-- Format Z, all three; slots that follow are not looked at. -/
theorem test_decode_no_operands :
    decode [0x0000] = .instr .halt ∧ decode [0x0012, 0xFFFF] = .instr .ret ∧ decode [0x0015] = .instr .noop := by
  decide

/-- Format V: push r7, jmp 100, call 5, out 65. -/
theorem test_decode_value :
    decode [0x0002, 0x8007] = .instr (.push (.reg 7)) ∧ decode [0x0006, 0x0064] = .instr (.jmp (.lit 100)) ∧
    decode [0x0011, 0x0005] = .instr (.call (.lit 5)) ∧ decode [0x0013, 0x0041] = .instr (.out (.lit 65)) := by
  decide

/-- Format D: pop r2, in r3. -/
theorem test_decode_destination :
    decode [0x0003, 0x8002] = .instr (.pop (.reg 2)) ∧ decode [0x0014, 0x8003] = .instr (.inp (.reg 3)) := by decide

/-- Format DV: set r7 32767, not r0 r1, rmem r1 r1. -/
theorem test_decode_destination_value :
    decode [0x0001, 0x8007, 0x7FFF] = .instr (.set (.reg 7) (.lit 32767)) ∧
    decode [0x000E, 0x8000, 0x8001] = .instr (.not (.reg 0) (.reg 1)) ∧
    decode [0x000F, 0x8001, 0x8001] = .instr (.rmem (.reg 1) (.reg 1)) := by decide

/-- Format VV: jt r0 r1, jf 0 100, wmem 300 4242. -/
theorem test_decode_two_values :
    decode [0x0007, 0x8000, 0x8001] = .instr (.jt (.reg 0) (.reg 1)) ∧
    decode [0x0008, 0x0000, 0x0064] = .instr (.jf (.lit 0) (.lit 100)) ∧
    decode [0x0010, 0x012C, 0x1092] = .instr (.wmem (.lit 300) (.lit 4242)) := by decide

/-- Format DVV. -/
theorem test_decode_destination_two_values :
    decode [0x0004, 0x8000, 0x8001, 0x000A] = .instr (.eq (.reg 0) (.reg 1) (.lit 10)) ∧
    decode [0x0005, 0x8000, 0x0005, 0x0004] = .instr (.gt (.reg 0) (.lit 5) (.lit 4)) ∧
    decode [0x0009, 0x8000, 0x7FFF, 0x0005] = .instr (.add (.reg 0) (.lit 32767) (.lit 5)) ∧
    decode [0x000A, 0x8006, 0x8001, 0x8002] = .instr (.mult (.reg 6) (.reg 1) (.reg 2)) ∧
    decode [0x000B, 0x8001, 0x8000, 0x8002] = .instr (.mod (.reg 1) (.reg 0) (.reg 2)) ∧
    decode [0x000C, 0x8000, 0x3039, 0x1A85] = .instr (.and (.reg 0) (.lit 12345) (.lit 6789)) ∧
    decode [0x000D, 0x8000, 0x5555, 0x2AAA] = .instr (.or (.reg 0) (.lit 21845) (.lit 10922)) := by decide

/-- V40.1: every opcode slot above 21 is unknown, one that would name a register among them. -/
theorem test_decode_unknown_opcode :
    decode [22] = .unknownOpcode 22 ∧ decode [32768] = .unknownOpcode 32768 ∧
    decode [65535] = .unknownOpcode 65535 := by decide

/-- R82's boundaries. -/
theorem test_classify_boundaries :
    classify 0x7FFF = .lit 32767 ∧ classify 0x8000 = .reg 0 ∧ classify 0x8007 = .reg 7 ∧
    classify 0x8008 = .invalid 0x8008 ∧ classify 0xFFFF = .invalid 0xFFFF := by decide

/-- Memory that ends early cuts an instruction short. -/
theorem test_decode_truncated : decode [0x0009, 0x8000, 0x0001] = .truncated .add [.reg 0, .lit 1] := by decide

/-- The table's numbering of a four-slot instruction: slot 1 is bits 31..16, and so on. -/
theorem test_table_word :
    decodeTableWord 64 0x0005_7FFF_8000_0009 = some (.add (.reg 0) (.lit 32767) (.lit 5)) ∧
    decodeTableWord 16 20 = some (.inp (.lit 0)) ∧ decodeTableWord 16 22 = none := by decide

/-- The encoder, from R91. -/
theorem test_encode : encode (.add (.reg 0) (.lit 32767) (.reg 7)) = [0x0009, 0x8000, 0x7FFF, 0x8007] := by decide

theorem test_asm_text : asmText (.wmem (.reg 1) (.lit 77)) = "wmem r1 77" := by decide

/-! ### One step of each instruction -/

/-- V41.1. -/
theorem test_set : let t := after { at' 0 [1, 32768, 32769] with regs := #v[0, 77, 0, 0, 0, 0, 0, 0] }
    t.regs = #v[77, 77, 0, 0, 0, 0, 0, 0] ∧ t.pc = 3 ∧ t.run = .running := by decide
/-- V41.4. -/
theorem test_push : let t := after { at' 0 [2, 32769] with regs := #v[0, 500, 0, 0, 0, 0, 0, 0] }
    t.stack = [500] ∧ t.pc = 2 ∧ t.regs[1] = 500 := by decide
/-- V41.6: 9 on top. -/
theorem test_pop : let t := after { at' 0 [3, 32770] with stack := [9, 5] }
    t.regs[2] = 9 ∧ t.stack = [5] ∧ t.pc = 2 := by decide
/-- V41.7. -/
theorem test_pop_underflow : let t := after (at' 0 [3, 32768])
    fault t = some (.stackUnderflow, 0, some 3) ∧ t.pc = 0 := by decide
/-- V42.1. -/
theorem test_eq : (after { at' 0 [4, 32768, 32769, 10] with regs := #v[0, 10, 0, 0, 0, 0, 0, 0] }).regs[0] = 1 ∧
    (after { at' 0 [4, 32768, 32769, 10] with regs := #v[0, 11, 0, 0, 0, 0, 0, 0] }).regs[0] = 0 := by decide
/-- V42.3: unsigned. -/
theorem test_gt : (after (at' 0 [5, 32768, 32767, 0])).regs[0] = 1 ∧ (after (at' 0 [5, 32768, 5, 5])).regs[0] = 0 ∧
    (after (at' 0 [5, 32768, 4, 5])).regs[0] = 0 := by decide
/-- V43.1. -/
theorem test_jmp : (after { at' 0 [6, 32771] with regs := #v[0, 0, 0, 250, 0, 0, 0, 0] }).pc = 250 := by decide
/-- V43.3, V43.4. -/
theorem test_jt : (after { at' 0 [7, 32768, 32769] with regs := #v[2, 77, 0, 0, 0, 0, 0, 0] }).pc = 77 ∧
    (after (at' 0 [7, 0, 100])).pc = 3 := by decide
/-- V43.5. -/
theorem test_jt_falls_off_the_top : let t := after (at' 32765 [7, 0, 5])
    t.pc = 32768 ∧ fault (after t) = some (.outOfRange, 32768, none) := by decide
/-- V43.4. -/
theorem test_jf : (after (at' 0 [8, 0, 100])).pc = 100 ∧ (after (at' 0 [8, 1, 100])).pc = 3 := by decide
/-- S1, V44.1. -/
theorem test_add : let t := after (at' 0 [9, 32768, 32767, 5])
    t.regs[0] = 4 ∧ t.pc = 4 ∧ (after (at' 0 [9, 32768, 16384, 16384])).regs[0] = 0 := by decide
/-- V44.2: the destination is both sources. -/
theorem test_add_aliased :
    (after { at' 0 [9, 32768, 32768, 32768] with regs := #v[20000, 0, 0, 0, 0, 0, 0, 0] }).regs[0] = 7232 := by decide
/-- V44.3. -/
theorem test_mult : (after (at' 0 [10, 32768, 12345, 6789])).regs[0] = 22429 ∧
    (after (at' 0 [10, 32768, 32767, 32767])).regs[0] = 1 := by decide
/-- V44.4. -/
theorem test_mod : (after (at' 0 [11, 32768, 100, 7])).regs[0] = 2 ∧ (after (at' 0 [11, 32768, 3, 7])).regs[0] = 3 := by
  decide
/-- V44.5. -/
theorem test_mod_by_zero : let t := after { at' 0 [11, 32769, 32768, 32770] with regs := #v[7, 55, 0, 0, 0, 0, 0, 0] }
    fault t = some (.divisionByZero, 0, some 11) ∧ t.regs[1] = 55 := by decide
/-- V44.6. -/
theorem test_and : (after (at' 0 [12, 32768, 12345, 6789])).regs[0] = 4097 := by decide
/-- V44.7. -/
theorem test_or : (after (at' 0 [13, 32768, 12345, 6789])).regs[0] = 15037 := by decide
/-- V44.8. -/
theorem test_not : (after (at' 0 [14, 32768, 12345])).regs[0] = 20422 ∧
    (after (at' 0 [14, 32768, 0])).regs[0] = 32767 := by decide
/-- V45.2: an instruction that reads its own opcode. -/
theorem test_rmem : let t := after (at' 0 [15, 32768, 0])
    t.regs[0] = 15 ∧ t.pc = 3 := by decide
/-- V45.4. -/
theorem test_rmem_no_word : fault (after (at' 0 [15, 32768, 1])) = some (.nonWordData, 0, some 15) := by decide
/-- V45.5. -/
theorem test_wmem : let t := after { at' 0 [16, 32769, 32770] with regs := #v[0, 200, 77, 0, 0, 0, 0, 0] }
    memRead t.mem 200 = some 77 ∧ t.pc = 3 ∧ t.regs = #v[0, 200, 77, 0, 0, 0, 0, 0] := by decide
/-- V45.6: bit 15 of the slot is cleared, and the next instruction is decoded from the new slot. -/
theorem test_wmem_seen_by_fetch : let t := after (at' 0 [16, 4, 5, 1, 32768, 9])
    memRead t.mem 4 = some 5 ∧ fault (after t) = some (.invalidOperandEncoding, 3, some 1) := by decide
/-- V46.2. -/
theorem test_call : let t := after { at' 0 [17, 32770] with regs := #v[0, 0, 300, 0, 0, 0, 0, 0] }
    t.stack = [2] ∧ t.pc = 300 := by decide
/-- V46.6. -/
theorem test_call_at_the_top : let t := after (at' 32766 [17, 5])
    fault t = some (.outOfRange, 32766, some 17) ∧ t.stack = [] := by decide
/-- V46.3. -/
theorem test_ret : let t := after { at' 13 [18] with stack := [2] }
    t.stack = [] ∧ t.pc = 2 := by decide
/-- S9, V46.5. -/
theorem test_ret_underflow : let t := after (at' 0 [18])
    fault t = some (.stackUnderflow, 0, some 18) ∧ t.pc = 0 := by decide
/-- V47.1. -/
theorem test_out : (after (at' 0 [19, 321])).outlog = [65] ∧ (after (at' 0 [19, 256])).outlog = [0] := by decide
/-- V47.2. -/
theorem test_in : let t := after { at' 0 [20, 32771] with inq := [200, 7] }
    t.regs[3] = 200 ∧ t.inq = [7] ∧ t.pc = 2 := by decide
/-- S8, V47.3. -/
theorem test_in_suspends : let t := after (at' 0 [20, 32768, 19, 32768, 0])
    t.run = .suspended ∧ t.pc = 0 ∧ report t = some .suspended ∧
    (nextOf (supply [65] t)).map (fun u => (u.run, (after u).regs[0])) = some (.running, 65) := by decide
/-- V47.4. -/
theorem test_halt : let t := after (at' 17 [0])
    t.run = .halted ∧ t.pc = 17 := by decide
/-- V47.5. -/
theorem test_noop : after (at' 9 [21]) = { at' 9 [21] with pc := 10, run := .running } := by decide

/-! ### The cycle and the host -/

/-- V40.5, V40.6, V40.7: decoding precedes execution. -/
theorem test_decode_precedes_execute :
    fault (after (at' 0 [3, 5])) = some (.invalidOperandEncoding, 0, some 3) ∧
    fault (after (at' 0 [11, 7, 1, 0])) = some (.invalidOperandEncoding, 0, some 11) ∧
    fault (after (at' 0 [20, 5])) = some (.invalidOperandEncoding, 0, some 20) := by decide
/-- V40.10, V40.11, V40.13: slot by slot at the top of memory. -/
theorem test_top_of_memory :
    fault (after (at' 32767 [2])) = some (.outOfRange, 32767, some 2) ∧
    fault (after (at' 32765 [9, 32768, 1])) = some (.outOfRange, 32765, some 9) ∧
    fault (after (at' 32766 [1, 40000])) = some (.invalidOperandEncoding, 32766, some 1) ∧
    fault (after (at' 32766 [1, 32768])) = some (.outOfRange, 32766, some 1) := by decide
/-- V40.12, V40.8. -/
theorem test_last_instruction_completes : let t := after (at' 32764 [9, 32768, 1, 2])
    t.regs[0] = 3 ∧ t.pc = 32768 ∧ fault (after t) = some (.outOfRange, 32768, none) := by decide
/-- V40.1, V40.15. -/
theorem test_unknown_opcode : let t := after (at' 0 [22])
    fault t = some (.unknownOpcode, 0, some 22) ∧ after t = t := by decide
/-- V48.5: the image bytes of S1. -/
theorem test_load_image :
    (nextOf (loadImage [0x09, 0x00, 0x00, 0x80, 0xFF, 0x7F, 0x05, 0x00, 0x00, 0x00])).map (fun s => (after s).regs[0]) =
      some 4 ∧ loadImage [1, 2, 3] = .refused (.imageOddLength 3) := ⟨by decide, rfl⟩
/-- V48.3: a faulted core, restored, faults again with the same record. -/
theorem test_restore_of_a_fault : let t := after (at' 0 [11, 32768, 1, 0])
    (nextOf (restore (capture t) t)).map (fun u => (u.run, u.frec, (after u).frec)) = some (.ready, none, t.frec) := by
  decide
/-- S8 as a run: the bytes come after the first attempt, and the result is the log, the final run state and record. -/
theorem test_run_of_s8 :
    let t := reached (at' 0 [20, 32768, 19, 32768, 0]) [.step, .supply [65], .step, .step, .step]
    (runResult t).outlog = [65] ∧ (runResult t).run = .halted ∧ (runResult t).frec = none ∧
      (runResult t).visible.regs[0] = 65 ∧ t.pc = 4 := by decide
/-- R233: no move of a run rewinds or reloads the core. -/
theorem test_moves_of_a_run : [HostAction.step, .supply [0, 255]].all HostAction.inRun = true ∧
    [HostAction.construct, .load [], .loadImage [], .restore (capture State.reset), .supply [256]].any HostAction.inRun =
      false := by decide
/-- R265, V43.2: `jmp 0` at 0 is a hang. -/
theorem test_jmp_to_itself_hangs : hung (at' 0 [6, 0]) := by
  have stay : ∀ n t, RunsTo { at' 0 [6, 0] with run := .running } n t → t.run = .running := by
    intro n
    induction n with
    | zero => intro t h; cases h; rfl
    | succ n ih => exact fun t h => ih t ((runsTo_succ ((step_after _).trans (congrArg _ (by decide))) n t).1 h)
  exact fun n t h => stay n t ((runsTo_succ ((step_after _).trans (congrArg _ (by decide))) n t).1 h)
/-- R230: `add r0 r1 5` with r1 = 7. -/
theorem test_trace :
    traceRecord { at' 0 [9, 32768, 32769, 5] with regs := #v[0, 7, 0, 0, 0, 0, 0, 0] } =
      some { pc := 0, opcode := 9, operands := [.dest 0, .value 7, .value 5] } ∧
    traceRecord (at' 0 [22]) = none := by decide
/-- `withFetchWord` at reset: the table word of `noop`, and one of `set r1 5`. -/
theorem test_with_fetch_word :
    (after (State.reset.withFetchWord 16 21)).pc = 1 ∧
    (after (State.reset.withFetchWord 48 0x0005_8001_0001)).regs[1] = 5 := by decide

/-! ### Witnesses: the instructions -/

/-- A state whose registers and channels hold something. -/
def sample : State :=
  { State.reset with regs := #v[7, 100, 0, 32767, 5, 6, 1, 32767], stack := [9, 5], inq := [200, 10], outlog := [1] }

/-- The opcodes with operands, by number, and their roles: the arguments of `DecodePhase` in the obligations. -/
def decodeCases : List (Nat × List Role) :=
  [(1, [.dest, .value]), (2, [.value]), (3, [.dest]), (4, [.dest, .value, .value]), (5, [.dest, .value, .value]),
    (6, [.value]), (7, [.value, .value]), (8, [.value, .value]), (9, [.dest, .value, .value]),
    (10, [.dest, .value, .value]), (11, [.dest, .value, .value]), (12, [.dest, .value, .value]),
    (13, [.dest, .value, .value]), (14, [.dest, .value]), (15, [.dest, .value]), (16, [.value, .value]),
    (17, [.value]), (19, [.value]), (20, [.dest])]

/-- An illegal slot for a role, next to the legal range. -/
def illegalSlot : Role → Raw
  | .dest => 32767
  | .value => 32776

/-- A legal slot for a role, at the end of the legal range. -/
def legalSlot : Role → Raw
  | .dest => 32768
  | .value => 32775

theorem illegalSlot_illegal : (r : Role) → ¬ LegalSlot r (illegalSlot r)
  | .dest => fun h => absurd h.1 (by decide)
  | .value => fun h => absurd (show (32776 : Raw).toNat ≤ 32775 from h) (by decide)

theorem legalSlot_legal : (r : Role) → LegalSlot r (legalSlot r)
  | .dest => ⟨by decide, by decide⟩
  | .value => show (32775 : Raw).toNat ≤ 32775 by decide

/-- Both clauses of `DecodePhase`, for each opcode that has operands: all its slots there and every one illegal; and
the opcode slot at 32767, or a legal prefix of its operands ending at 32767. -/
theorem witness_DecodePhase : ∀ c ∈ decodeCases,
    (∃ (s : State) (ws : List Raw), s.run.steps = true ∧ memRead s.mem s.pc.toNat = some (BitVec.ofNat 16 c.1) ∧
      ws.length = c.2.length ∧ SlotsAt s.mem (s.pc.toNat + 1) ws ∧ ∃ x ∈ c.2.zip ws, ¬ LegalSlot x.1 x.2) ∧
    ∀ n < c.2.length, ∃ (s : State) (ws : List Raw), s.run.steps = true ∧
      memRead s.mem s.pc.toNat = some (BitVec.ofNat 16 c.1) ∧ ws.length = n ∧ ws.length < c.2.length ∧
      s.pc.toNat + 1 + ws.length = 32768 ∧ SlotsAt s.mem (s.pc.toNat + 1) ws ∧
      ∀ x ∈ c.2.zip ws, LegalSlot x.1 x.2 := by
  have key : ∀ c ∈ decodeCases, c.2 ≠ [] ∧
      (let ws := c.2.map illegalSlot
       let s := at' 0 (BitVec.ofNat 16 c.1 :: ws)
       memRead s.mem s.pc.toNat = some (BitVec.ofNat 16 c.1) ∧ slotsAt? s.mem (s.pc.toNat + 1) ws = true) ∧
      ∀ n ∈ List.range c.2.length,
       (let ws := (c.2.take n).map legalSlot
        let s := at' (32767 - n) (BitVec.ofNat 16 c.1 :: ws)
        memRead s.mem s.pc.toNat = some (BitVec.ofNat 16 c.1) ∧ ws.length = n ∧
        s.pc.toNat + 1 + ws.length = 32768 ∧ slotsAt? s.mem (s.pc.toNat + 1) ws = true) := by decide +kernel
  intro c hc
  obtain ⟨h0, ⟨h1, h2⟩, h3⟩ := key c hc
  refine ⟨⟨at' 0 _, c.2.map illegalSlot, rfl, h1, List.length_map _, slotsAt_of h2, ?_⟩, fun n hn => ?_⟩
  · obtain ⟨r, rs, e⟩ := List.exists_cons_of_ne_nil h0
    exact ⟨(r, illegalSlot r), by simp [e], illegalSlot_illegal r⟩
  · obtain ⟨k1, k2, k3, k4⟩ := h3 n (List.mem_range.2 hn)
    refine ⟨at' (32767 - n) _, (c.2.take n).map legalSlot, rfl, k1, k2, by rw [k2]; exact hn, k3, slotsAt_of k4, ?_⟩
    intro x hx
    obtain ⟨i, hi, e⟩ := List.mem_iff_getElem.1 hx
    simp only [List.getElem_zip, List.getElem_map, List.getElem_take] at e
    rw [← e]
    exact legalSlot_legal _

theorem witness_SetCopiesValueToRegister : Resolves sample (.reg 3) 32767 ∧ Resolves sample (.lit 5) 5 := ⟨rfl, rfl⟩
theorem witness_PushPutsValueOnStack : Resolves sample (.reg 3) 32767 ∧ Resolves sample (.lit 5) 5 := ⟨rfl, rfl⟩
theorem witness_PopTakesTopOrUnderflows : sample.stack = 9 :: [5] ∧ State.reset.stack = [] := ⟨rfl, rfl⟩
theorem witness_EqWritesOneExactlyWhenEqual : Resolves sample (.reg 3) 32767 ∧ Resolves sample (.lit 32767) 32767 :=
  ⟨rfl, rfl⟩
theorem witness_GtWritesOneExactlyWhenGreater : Resolves sample (.reg 3) 32767 ∧ Resolves sample (.lit 0) 0 := ⟨rfl, rfl⟩
theorem witness_JmpGoesToTarget : Resolves sample (.reg 1) 100 ∧ Resolves sample (.lit 32767) 32767 := ⟨rfl, rfl⟩
theorem witness_JtJumpsExactlyWhenNonzero :
    Resolves sample (.reg 2) 0 ∧ Resolves sample (.lit 1) 1 ∧ Resolves sample (.reg 1) 100 := ⟨rfl, rfl, rfl⟩
theorem witness_JfJumpsExactlyWhenZero :
    Resolves sample (.reg 2) 0 ∧ Resolves sample (.lit 1) 1 ∧ Resolves sample (.reg 1) 100 := ⟨rfl, rfl, rfl⟩
theorem witness_AddWritesSumModulo32768 : Resolves sample (.reg 3) 32767 ∧ Resolves sample (.lit 5) 5 ∧
    (4 : Word).toNat = ((32767 : Word).toNat + (5 : Word).toNat) % 32768 := ⟨rfl, rfl, by decide⟩
theorem witness_MultWritesProductModulo32768 : Resolves sample (.reg 3) 32767 ∧ Resolves sample (.lit 32767) 32767 ∧
    (1 : Word).toNat = ((32767 : Word).toNat * (32767 : Word).toNat) % 32768 := ⟨rfl, rfl, by decide⟩
theorem witness_ModWritesRemainderOrDividesByZero : Resolves sample (.reg 1) 100 ∧ Resolves sample (.lit 7) 7 ∧
    (7 : Word).toNat ≠ 0 ∧ (2 : Word).toNat = (100 : Word).toNat % (7 : Word).toNat ∧
    Resolves sample (.reg 2) 0 ∧ (0 : Word).toNat = 0 := ⟨rfl, rfl, by decide, by decide, rfl, by decide⟩
theorem witness_AndWritesBitwiseConjunction : Resolves sample (.lit 12345) 12345 ∧ Resolves sample (.lit 6789) 6789 ∧
    ∀ n < 15, (4097 : Word).toNat.testBit n = ((12345 : Word).toNat.testBit n && (6789 : Word).toNat.testBit n) :=
  ⟨rfl, rfl, by decide⟩
theorem witness_OrWritesBitwiseDisjunction : Resolves sample (.lit 12345) 12345 ∧ Resolves sample (.lit 6789) 6789 ∧
    ∀ n < 15, (15037 : Word).toNat.testBit n = ((12345 : Word).toNat.testBit n || (6789 : Word).toNat.testBit n) :=
  ⟨rfl, rfl, by decide⟩
theorem witness_NotWritesFifteenBitComplement : Resolves sample (.lit 12345) 12345 ∧
    (20422 : Word).toNat = 32767 - (12345 : Word).toNat := ⟨rfl, by decide⟩
/-- Both clauses, at 32767 and 32768, the last address among the places read. -/
theorem witness_RmemReadsWordOrFaults : let s := at' 32766 [32767, 32768]
    Resolves s (.lit 32766) 32766 ∧ memRead s.mem (32766 : Word).toNat = some 32767 ∧
    (32767 : Raw).toNat ≤ 32767 ∧ (32767 : Word).toNat = (32767 : Raw).toNat ∧
    Resolves s (.lit 32767) 32767 ∧ memRead s.mem (32767 : Word).toNat = some 32768 ∧
    32768 ≤ (32768 : Raw).toNat := ⟨rfl, by decide, by decide, by decide, rfl, by decide, by decide⟩
theorem witness_WmemStoresValueAtAddress : Resolves sample (.reg 3) 32767 ∧ Resolves sample (.lit 21) 21 ∧
    (0 : Nat) ≠ (32767 : Word).toNat := ⟨rfl, rfl, by decide⟩
/-- Both clauses, at 32765 and 32766. -/
theorem witness_CallPushesReturnAddressAndJumps : Resolves (at' 32765 [17, 5]) (.lit 5) 5 ∧
    (32767 : Word).toNat = (at' 32765 [17, 5]).pc.toNat + 2 ∧ Resolves (at' 32766 [17, 5]) (.lit 5) 5 ∧
    32768 ≤ (at' 32766 [17, 5]).pc.toNat + 2 := ⟨rfl, by decide, rfl, by decide⟩
theorem witness_RetPopsAddressOrUnderflows : sample.stack = 9 :: [5] ∧ State.reset.stack = [] := ⟨rfl, rfl⟩
theorem witness_OutAppendsLowByte : Resolves sample (.lit 321) 321 ∧ (65 : Byte).toNat = (321 : Word).toNat % 256 ∧
    Resolves sample (.reg 3) 32767 ∧ (255 : Byte).toNat = (32767 : Word).toNat % 256 :=
  ⟨rfl, by decide, rfl, by decide⟩
theorem witness_InTakesOldestByteOrSuspends : sample.inq = 200 :: [10] ∧ (200 : Word).toNat = (200 : Byte).toNat ∧
    State.reset.inq = [] := ⟨rfl, by decide, rfl⟩

/-! ### Witnesses: the execution cycle -/

theorem witness_StepRunsDecodedInstruction : let s := at' 32764 [9, 32768, 1, 2]
    let i := Instr.add (.reg 0) (.lit 1) (.lit 2)
    s.run.steps = true ∧ i.wellFormed = true ∧ SlotsAt s.mem s.pc.toNat (encode i) :=
  ⟨rfl, rfl, slotsAt_of (by decide)⟩
theorem witness_OpcodeFetchAtTopFaults : let s := at' 32768 []
    s.run.steps = true ∧ s.pc.toNat = 32768 := by decide
theorem witness_OpcodeRecognisedOrUnknown : let s := at' 0 [22]
    21 < (22 : Raw).toNat ∧ s.run.steps = true ∧ memRead s.mem s.pc.toNat = some 22 ∧ (21 : Raw).toNat ≤ 21 := by decide
/-- A fault of each kind the loop can find, and none. -/
theorem witness_OperandPhaseFollowsPseudocode :
    let s := at' 32766 [1, 32768]
    let u := at' 32766 [1, 40000]
    let v := at' 0 [1, 32768, 32775]
    s.run.steps = true ∧ memRead s.mem s.pc.toNat = some Opcode.set.slot ∧
    firstOperandFault s.mem Opcode.set.roles (s.pc.toNat + 1) = some .outOfRange ∧
    u.run.steps = true ∧ memRead u.mem u.pc.toNat = some Opcode.set.slot ∧
    firstOperandFault u.mem Opcode.set.roles (u.pc.toNat + 1) = some .invalidOperandEncoding ∧
    v.run.steps = true ∧ memRead v.mem v.pc.toNat = some Opcode.set.slot ∧
    firstOperandFault v.mem Opcode.set.roles (v.pc.toNat + 1) = none := by decide
theorem witness_IllegalOperandHasNoEffect : (Instr.wmem (.lit 0) (.invalid 0x8008)).wellFormed = false := by decide
theorem witness_FaultChangesOnlyRunAndRecord : let s := at' 0 [11, 32768, 7, 0]
    s.run.steps = true ∧ step s = .next (after s) ∧ (after s).run = .faulted := ⟨rfl, step_after _, by decide⟩
/-- One state per fault kind that is ever recorded, and for `OutOfRange` one per cause. -/
theorem witness_FaultKindsComeFromTheirCauses :
    ∀ c ∈ [(at' 32768 [], FaultKind.outOfRange), (at' 32767 [2], .outOfRange), (at' 32766 [17, 5], .outOfRange),
        (at' 0 [1, 0, 5], .invalidOperandEncoding), (at' 0 [18], .stackUnderflow), (at' 0 [3, 32768], .stackUnderflow),
        (at' 0 [11, 32768, 7, 0], .divisionByZero), (at' 0 [65535], .unknownOpcode),
        (at' 0 [15, 32768, 1], .nonWordData)],
      c.1.run.steps = true ∧ step c.1 = .next (after c.1) ∧ (after c.1).run = .faulted ∧
        ∃ r, (after c.1).frec = some r ∧ r.kind = c.2 := by
  intro c hc
  refine ⟨?_, step_after _, ?_⟩
  · revert c; decide
  · have : (after c.1).run = .faulted ∧ (after c.1).frec.map FaultRecord.kind = some c.2 := by revert c; decide
    exact ⟨this.1, Option.map_eq_some_iff.1 this.2⟩
/-- Both directions: a starved `in`, and a step that does not suspend. -/
theorem witness_SuspensionIsAStarvedIn :
    (let s := at' 0 [20, 32775]
     s.run.steps = true ∧ step s = .next (after s) ∧ (after s).run = .suspended ∧ s.inq = [] ∧
       SlotsAt s.mem s.pc.toNat (encode (.inp (.reg 7)))) ∧
    (let s := at' 0 [21]
     s.run.steps = true ∧ step s = .next (after s) ∧ (after s).run = .running) :=
  ⟨⟨rfl, step_after _, by decide, rfl, slotsAt_of (by decide)⟩, rfl, step_after _, by decide⟩
theorem witness_SuspendedCoreWaitsForSupply : let s := at' 0 [20, 32768]
    s.run.steps = true ∧ step s = .next (after s) ∧ (after s).run = .suspended ∧ ∀ x ∈ [255, 0], x < 256 :=
  ⟨rfl, step_after _, by decide, by decide⟩
theorem witness_HaltingIsAHalt : let s := at' 32767 [0]
    s.run.steps = true ∧ step s = .next (after s) ∧ (after s).run = .halted ∧
      memRead s.mem s.pc.toNat = some 0 := ⟨rfl, step_after _, by decide, by decide⟩
theorem witness_StepAlwaysReports : runOver (after (at' 0 [0])) = true ∧ runOver (after (at' 0 [22])) = true ∧
    runOver State.reset = false := by decide
/-- First clause: two states that differ in what a run may not depend on, and a behaviour with a supply that ends in a
fault. Second clause: two behaviours that supply one byte at different times and end over. -/
theorem witness_RunsDependOnlyOnProgramStateAndInput :
    (let s := at' 0 [20, 32768, 22]
     let s' := { s with outlog := [1, 2], run := RunState.suspended }
     let xs := [HostAction.step, .supply [65], .step, .step]
     s.run.steps = true ∧ s'.run.steps = true ∧ s'.regs = s.regs ∧ s'.pc = s.pc ∧ s'.stack = s.stack ∧
       s'.mem = s.mem ∧ s'.inq = s.inq ∧ Run s xs (reached s xs) ∧ HostAction.step ∈ xs ∧
       (reached s xs).run = .faulted) ∧
    (let s := at' 0 [20, 32768, 0]
     let xs := [HostAction.step, .step, .supply [65], .step, .step]
     let ys := [HostAction.supply [65], .supply [], .step, .step, .step]
     Run s xs (reached s xs) ∧ Run s ys (reached s ys) ∧ supplied xs = supplied ys ∧
       runOver (reached s xs) = true ∧ runOver (reached s ys) = true) :=
  ⟨⟨rfl, rfl, rfl, rfl, rfl, rfl, rfl, run_reached rfl _, by decide, by decide⟩,
    run_reached rfl _, run_reached rfl _, rfl, by decide, by decide⟩

/-! ### Witnesses: invariants and whole-machine rules -/

theorem witness_StepKeepsInvariants : let s := at' 0 [16, 32767, 21]
    Inv s ∧ step s = .next (after s) := ⟨by decide, step_after _⟩
theorem witness_HostMovesKeepInvariants : let s := after (at' 0 [20, 32768])
    Inv s ∧ HostAction.step.act s = .next (after s) ∧
    nextOf ((HostAction.supply [65]).act s) ≠ none ∧ nextOf ((HostAction.load [65535]).act s) ≠ none ∧
    nextOf ((HostAction.restore (capture s)).act s) ≠ none ∧
    Launch State.reset ∧ Run State.reset [.step, .supply [65]] (reached State.reset [.step, .supply [65]]) :=
  ⟨by decide, step_after _, by decide, by decide, by decide, ⟨[], rfl⟩, run_reached rfl _⟩
/-- A step that ends at 32768. -/
theorem witness_SequentialAdvanceIsNotReduced : let s := at' 32766 [19, 65]
    let i := Instr.out (.lit 65)
    s.run.steps = true ∧ i.wellFormed = true ∧ SlotsAt s.mem s.pc.toNat (encode i) ∧
      i.opcode ∉ [Opcode.jmp, .jt, .jf, .call, .ret] ∧ step s = .next (after s) ∧ (after s).run = .running ∧
      (after s).pc = 32768 :=
  ⟨rfl, rfl, slotsAt_of (by decide), by decide, step_after _, by decide, by decide⟩
theorem witness_OnlyDestinationRegisterChanges : let s := at' 0 [1, 32775, 5]
    s.run.steps = true ∧ step s = .next (after s) ∧ (after s).regs[(7 : RegIdx)] ≠ s.regs[(7 : RegIdx)] :=
  ⟨rfl, step_after _, by decide⟩
theorem witness_StackChangesOnlyAtTheTop :
    (let s := at' 0 [2, 9]
     s.run.steps = true ∧ step s = .next (after s) ∧ (after s).stack = 9 :: s.stack) ∧
    (let s := { at' 0 [18] with stack := [4] }
     s.run.steps = true ∧ step s = .next (after s) ∧ s.stack = 4 :: (after s).stack) :=
  ⟨⟨rfl, step_after _, by decide⟩, rfl, step_after _, by decide⟩
theorem witness_OnlyWmemWritesMemory : let s := at' 0 [15, 32768, 0]
    s.run.steps = true ∧ step s = .next (after s) ∧ memRead s.mem s.pc.toNat ≠ some 16 := ⟨rfl, step_after _, by decide⟩
/-- A slot above 32767 that was there before, and one a step stored. -/
theorem witness_NoStepStoresAboveWordMax : let s := { at' 0 [16, 32769, 7] with regs := #v[0, 32767, 0, 0, 0, 0, 0, 0] }
    step s = .next (after s) ∧ memRead (after s).mem 1 = some 32769 ∧ memRead (after s).mem 32767 = some 7 :=
  ⟨step_after _, by decide, by decide⟩
theorem witness_ChannelsMoveOneByteInOrder :
    (let s := at' 0 [19, 65]
     s.run.steps = true ∧ step s = .next (after s) ∧ (after s).outlog = s.outlog ++ [65]) ∧
    (let s := { at' 0 [20, 32768] with inq := [200, 7] }
     s.run.steps = true ∧ step s = .next (after s) ∧ s.inq = 200 :: (after s).inq) :=
  ⟨⟨rfl, step_after _, by decide⟩, rfl, step_after _, by decide⟩

/-! ### Witnesses: operands, memory, families, encoding, host -/

theorem witness_OperandFormsResolve : (32767 : Raw).toNat ≤ 32767 ∧
    (32768 : Raw).toNat = 32768 + (0 : RegIdx).val ∧ (32775 : Raw).toNat = 32768 + (7 : RegIdx).val ∧
    32776 ≤ (32776 : Raw).toNat := by decide
theorem witness_MemoryReadChecksBounds : (32768 : Nat) ≥ 32768 ∧ (32767 : Nat) < 32768 := by decide
theorem witness_MemoryWriteReplacesOneSlot : (32768 : Nat) ≥ 32768 ∧ (32767 : Nat) < 32768 ∧ (0 : Nat) ≠ 32767 ∧
    State.reset.mem.wf = true := by decide
theorem witness_StoredWordIsReadBack : let t := ran (.wmem (.reg 3) (.lit 0)) sample
    Resolves sample (.reg 3) 32767 ∧ Resolves sample (.lit 0) 0 ∧
    exec (.wmem (.reg 3) (.lit 0)) sample = .next t ∧
    memRead t.mem (32767 : Word).toNat = memRead t.mem (32767 : Word).toNat ∧ Resolves t (.lit 32767) 32767 :=
  ⟨rfl, rfl, exec_ran _ _, rfl, rfl⟩
/-- A store to the very next slot to be fetched. -/
theorem witness_FetchSeesStoredOpcode : let s := at' 0 [16, 3, 21]
    let t := ran (.wmem (.lit 3) (.lit 21)) s
    Resolves s (.lit 3) 3 ∧ Resolves s (.lit 21) 21 ∧ exec (.wmem (.lit 3) (.lit 21)) s = .next t ∧
    t.pc.toNat = (3 : Word).toNat ∧ (21 : Word).toNat = 21 := ⟨rfl, rfl, exec_ran _ _, by decide, by decide⟩
theorem witness_ComparisonsAreATrichotomy : Resolves sample (.reg 3) 32767 ∧ Resolves sample (.lit 0) 0 := ⟨rfl, rfl⟩
theorem witness_NotAddAddSubtracts : Resolves sample (.reg 0) 7 ∧ Resolves sample (.reg 1) 100 ∧
    Operand.reg 0 ≠ .reg 1 ∧ (32675 : Word).toNat = ((7 : Word).toNat + (32768 - (100 : Word).toNat)) % 32768 :=
  ⟨rfl, rfl, by decide, by decide⟩
/-- The call of S4, moved to the last address that has a return address, and a `ret` elsewhere. -/
theorem witness_RetUndoesCall : let s := at' 32765 [17, 3]
    let t := after s
    let u := { at' 0 [18] with stack := t.stack }
    s.run.steps = true ∧ Operand.legalValue (.lit 3) = true ∧ SlotsAt s.mem s.pc.toNat (encode (.call (.lit 3))) ∧
      s.pc.toNat ≤ 32765 ∧ step s = .next t ∧ u.run.steps = true ∧ memRead u.mem u.pc.toNat = some 18 ∧
      u.stack = t.stack :=
  ⟨rfl, rfl, slotsAt_of (by decide), by decide, step_after _, rfl, by decide, rfl⟩
theorem witness_DecodeOfEncodeIsTheInstruction : (Instr.wmem (.reg 7) (.lit 32767)).wellFormed = true := by decide
theorem witness_EncodeOfDecodeIsTheSlots :
    decode [9, 32768, 40000, 5, 6] = .instr (.add (.reg 0) (.invalid 40000) (.lit 5)) := by decide
/-- Each clause: a full image, one word too many, an odd number of bytes, and the first words of V48.5. -/
theorem witness_LoadInstallsImage : (List.replicate 32768 (1 : Raw)).length ≤ 32768 ∧
    32768 < (List.replicate 32769 (1 : Raw)).length ∧ ([1, 2, 3] : List Byte).length % 2 = 1 ∧
    ([0x09, 0x00, 0x00, 0x80] : List Byte).length = 2 * ([9, 32768] : List Raw).length ∧
    ∀ n w, ([9, 32768] : List Raw)[n]? = some w →
      ∃ lo hi, ([0x09, 0x00, 0x00, 0x80] : List Byte)[2 * n]? = some lo ∧
        ([0x09, 0x00, 0x00, 0x80] : List Byte)[2 * n + 1]? = some hi ∧ w.toNat = lo.toNat + 256 * hi.toNat := by
  refine ⟨by rw [List.length_replicate], by rw [List.length_replicate]; decide, rfl, rfl, fun n w h => ?_⟩
  match n with
  | 0 => cases h; exact ⟨0x09, 0x00, rfl, rfl, rfl⟩
  | 1 => cases h; exact ⟨0x00, 0x80, rfl, rfl, rfl⟩
  | n + 2 => simp at h
theorem witness_SupplyAppendsBytes : (∀ b ∈ [0, 255], b < 256) ∧ ∃ b ∈ [0, 256], 256 ≤ b := by decide
/-- Each clause: a core to capture, a snapshot whose `pc` is out of range, and one whose memory is out of form. -/
theorem witness_RestoreReplacesFourComponents : Inv (after (at' 0 [22])) ∧
    32768 < { capture State.reset with pc := 32769 }.pc.toNat ∧
    { capture State.reset with mem := { cells := [(0, 0)] } }.mem.wf = false := by decide
theorem witness_RestoredTerminalStateEndsAgain : let s := at' 0 [11, 32768, 1, 0]
    let t := after s
    let v : State := { sample with regs := t.regs, pc := t.pc, stack := t.stack, mem := t.mem, run := .ready, frec := none }
    s.run.steps = true ∧ step s = .next t ∧ t.run.steps = false ∧ restore (capture t) sample = .next v ∧
      t.run = .faulted := ⟨rfl, step_after _, by decide, by rw [restore, if_pos (by decide)]; rfl, by decide⟩
/-- Each clause: a fault, a suspension, a terminal state; and a step that completes, and one that halts. -/
theorem witness_TraceRecordsCompletedInstructions :
    (∀ s : State, step s = .next (after s)) ∧ (after (at' 0 [22])).run = .faulted ∧
    (after (at' 0 [20, 32768])).run = .suspended ∧ (after (at' 0 [0])).run.steps = false ∧
    (at' 0 [9, 32768, 32769, 5]).run.steps = true ∧ (after (at' 0 [9, 32768, 32769, 5])).run = .running ∧
    (after (at' 0 [0])).run = .halted := ⟨step_after, by decide⟩

end Sys2Proof.Tests
end

/-! PROOFS. The family of spec/10_state.md: what a step does to each component of the state, the invariants of R34 under
every move of the host, and the reset state (R37). -/

/-! ### Fetching: the decoder reads exactly the slots of a whole instruction -/

namespace Sys2Proof.Machine

open Sys2Proof.Claims

theorem encode_length (i : Instr) : (encode i).length = i.length := by
  simp [encode, Instr.length, operands_length]

/-- A whole instruction at the head of the slots is what the decoder reads, whatever follows (R89). -/
theorem decode_encode_append {i : Instr} (hw : i.wellFormed = true) (rest : List Raw) :
    decode (encode i ++ rest) = .instr i := by
  have hops : (i.operands.map Operand.slot).map classify = i.operands := by
    rw [List.map_map]
    exact (List.map_congr_left fun o ho => classify_slot o (operands_legal hw o ho)).trans (List.map_id _)
  simp [encode, decode, hops, build_operands]

/-- Slots that memory holds at `a`, at most four of them, begin what the decoder is offered there. -/
theorem slotsAt_iff_isPrefix {m : Memory} {a : Nat} {ws : List Raw} (hl : ws.length ≤ 4) :
    SlotsAt m a ws ↔ ws <+: slotsFrom m a 4 := by
  rw [List.prefix_iff_getElem?]
  constructor
  · intro h n hn
    rw [slotsFrom_getElem?, if_pos (by omega), h n _ (List.getElem?_eq_getElem hn)]
  · intro h n w hw
    obtain ⟨hn, rfl⟩ := List.getElem?_eq_some_iff.1 hw
    rw [← h n hn, slotsFrom_getElem?, if_pos (by omega)]

theorem encode_length_le (i : Instr) : (encode i).length ≤ 4 := by
  have := arity_le i.opcode
  rw [encode_length, Instr.length]
  omega

/-- Memory that holds a well-formed instruction at `pc` is decoded to it (R111 to R113). -/
theorem fetchDecode_of_slotsAt {s : State} {i : Instr} (hw : i.wellFormed = true)
    (h : SlotsAt s.mem s.pc.toNat (encode i)) : fetchDecode s = .instr i := by
  obtain ⟨rest, hrest⟩ := (slotsAt_iff_isPrefix (encode_length_le i)).1 h
  rw [fetchDecode, ← hrest, decode_encode_append hw]

/-- A decoded instruction stands in memory at `pc`, slot for slot (R82, R91). -/
theorem slotsAt_of_fetchDecode {s : State} {i : Instr} (h : fetchDecode s = .instr i) :
    SlotsAt s.mem s.pc.toNat (encode i) := by
  obtain ⟨hop, -, hops⟩ := fetchDecode_instr h
  have hslots : i.operands.map Operand.slot = (slotsFrom s.mem (s.pc.toNat + 1) 3).take i.opcode.arity := by
    rw [hops, List.map_map]
    exact List.map_id'' slot_classify _
  rw [slotsAt_iff_isPrefix (encode_length_le i), encode, hslots]
  simp only [slotsFrom, hop]
  exact (List.prefix_cons_inj _).2 (List.take_prefix _ _)

theorem memRead_of_fetchDecode {s : State} {i : Instr} {op : Opcode} (h : fetchDecode s = .instr i)
    (ho : i.opcode = op) : memRead s.mem s.pc.toNat = some op.slot :=
  ho ▸ (fetchDecode_instr h).1

/-! ### What an instruction does to each component of the state -/

section Effect

variable {s t : State} {i : Instr}

/-- An instruction leaves the registers, or completes and writes the one its destination slot names (R21, R22). -/
theorem ExecEffect.regs_cases (e : ExecEffect s i t) :
    t.regs = s.regs ∨ ∃ (r : RegIdx) (v : Word), t.regs = s.regs.set r v ∧ t.run = .running ∧ i.wellFormed = true ∧
      i.operands.head? = some (.reg r) ∧ i.opcode.roles.head? = some .dest := by
  cases e with
  | write _ r v hw hd hr => exact .inr ⟨r, v, rfl, rfl, hw, hd, hr⟩
  | pop r v => exact .inr ⟨r, v, rfl, rfl, rfl, rfl, rfl⟩
  | inp r b => exact .inr ⟨r, byteToWord b, rfl, rfl, rfl, rfl, rfl⟩
  | _ => exact .inl rfl

/-- An instruction stops where it is, advances over its own slots, or transfers control to a Word (R24, R115 to R117). -/
theorem ExecEffect.pc_cases (e : ExecEffect s i t) :
    (t.pc = s.pc ∧ t.run ≠ .running) ∨ t.pc = s.pc + BitVec.ofNat 16 i.length ∨
      (∃ w : Word, t.pc = wordToPc w) ∧ i.opcode ∈ [Opcode.jmp, .jt, .jf, .call, .ret] := by
  cases e with
  | fault | starved | halt => exact .inl ⟨rfl, nofun⟩
  | write | pop | inp | push | fall | store | out => exact .inr (.inl rfl)
  | jump _ w _ h => exact .inr (.inr ⟨⟨w, rfl⟩, List.mem_append_left [Opcode.call, .ret] h⟩)
  | call _ w | ret w => exact .inr (.inr ⟨⟨w, rfl⟩, by simp [Instr.opcode]⟩)

/-- An instruction moves at most the top of the stack (R26). -/
theorem ExecEffect.stack_cases (e : ExecEffect s i t) :
    t.stack = s.stack ∨
      (∃ v, t.stack = v :: s.stack ∧ (i.opcode = .push ∨ i.opcode = .call)) ∨
      ∃ v, s.stack = v :: t.stack ∧ (i.opcode = .pop ∨ i.opcode = .ret) := by
  cases e with
  | push _ v => exact .inr (.inl ⟨v, rfl, .inl rfl⟩)
  | call _ _ ra => exact .inr (.inl ⟨ra, rfl, .inr rfl⟩)
  | pop _ v _ h => exact .inr (.inr ⟨v, h, .inl rfl⟩)
  | ret v _ h => exact .inr (.inr ⟨v, h, .inr rfl⟩)
  | _ => exact .inl rfl

/-- An instruction leaves memory, or is a `wmem` that writes one slot (R27, R53). -/
theorem ExecEffect.mem_cases (e : ExecEffect s i t) :
    t.mem = s.mem ∨ (∃ (a : Nat) (v : Word), memWrite s.mem a v = some t.mem) ∧ i.opcode = .wmem := by
  cases e with
  | store _ _ ea v _ _ _ _ _ hm => exact .inr ⟨⟨ea.toNat, v, hm⟩, rfl⟩
  | _ => exact .inl rfl

/-- An instruction leaves the log, or is an `out` that appends one byte (R31). -/
theorem ExecEffect.outlog_cases (e : ExecEffect s i t) :
    t.outlog = s.outlog ∨ (∃ b, t.outlog = s.outlog ++ [b]) ∧ i.opcode = .out := by
  cases e with
  | out _ v => exact .inr ⟨⟨lowByte v, rfl⟩, rfl⟩
  | _ => exact .inl rfl

/-- An instruction leaves the input queue, or is an `in` that takes its oldest byte (R30). -/
theorem ExecEffect.inq_cases (e : ExecEffect s i t) :
    t.inq = s.inq ∨ (∃ b, s.inq = b :: t.inq) ∧ i.opcode = .inp := by
  cases e with
  | inp _ b _ h => exact .inr ⟨⟨b, h⟩, rfl⟩
  | _ => exact .inl rfl

/-- An instruction takes a fault, or does not end `Faulted` and leaves the fault record (R29, R115). -/
theorem ExecEffect.fault_or_frec_eq (e : ExecEffect s i t) :
    (∃ k fop, t = s.takeFault k fop) ∨ (t.run ≠ .faulted ∧ t.frec = s.frec) := by
  cases e with
  | fault _ k => exact .inl ⟨k, _, rfl⟩
  | _ => exact .inr ⟨nofun, rfl⟩

end Effect

/-- A step from a state that can step is the decoded instruction's own meaning (R114). -/
theorem step_eq_exec {s : State} {i : Instr} (hr : s.run.steps = true) (hd : fetchDecode s = .instr i) :
    step s = exec i s := by
  simp [step, hr, hd]

/-- A step takes a fault, or runs the instruction decoded at `pc` (R110 to R114). -/
theorem step_fault_or_effect {s t : State} (hr : s.run.steps = true) (h : step s = .next t) :
    (∃ k fop, t = s.takeFault k fop) ∨ ∃ i, fetchDecode s = .instr i ∧ ExecEffect s i t := by
  cases step_next hr h with
  | outside | unknown | short => exact .inl ⟨_, _, rfl⟩
  | run i _ hd _ he => exact .inr ⟨i, hd, he⟩

/-- Sequential advance within memory, or just past its last slot, does not wrap (R24 a; decision D4). -/
theorem pc_add_toNat {p : Pc} {n : Nat} (h : p.toNat + n ≤ Config.memSlots) :
    (p + BitVec.ofNat 16 n).toNat = p.toNat + n := by
  simp only [Config.memSlots] at h
  simp only [BitVec.toNat_add, BitVec.toNat_ofNat]
  omega

/-! ### The invariants of R34 -/

theorem frecOk_of_none {s : State} (hr : s.run ≠ .faulted) (hf : s.frec = none) : s.frecOk = true := by
  unfold State.frecOk
  cases h : s.run <;> simp_all

theorem frec_none_of_frecOk {s : State} (h : s.frecOk = true) (hr : s.run ≠ .faulted) : s.frec = none := by
  unfold State.frecOk at h
  cases hs : s.run <;> simp_all

/-- A core that can step has not faulted (R28, R110). -/
theorem ne_faulted_of_steps {r : RunState} (h : r.steps = true) : r ≠ .faulted := by
  rintro rfl
  cases h

theorem frecOk_takeFault (s : State) (k : FaultKind) (fop : Option Raw) : (s.takeFault k fop).frecOk = true := by
  simp [State.frecOk]

/-- A fault keeps `pc` and memory, and its record names `pc` (R115; decision D7). -/
theorem inv_takeFault {s : State} (hs : Inv s) (k : FaultKind) (fop : Option Raw) : Inv (s.takeFault k fop) := by
  obtain ⟨hpc, hmem, -⟩ := hs
  exact ⟨hpc, hmem, frecOk_takeFault s k fop⟩

/-- The reset core has no cell in memory and no fault record (R37). -/
theorem inv_reset : Inv State.reset := ⟨by decide, rfl, rfl⟩

/-- A whole instruction leaves `pc` in 0..32768 (R23). -/
theorem ExecEffect.pc_le {s t : State} {i : Instr} (e : ExecEffect s i t) (hp : s.pc.toNat ≤ Config.pcMax)
    (hfit : s.pc.toNat + i.length ≤ Config.memSlots) : t.pc.toNat ≤ Config.pcMax := by
  obtain ⟨h, -⟩ | h | ⟨⟨w, h⟩, -⟩ := e.pc_cases
  · rwa [h]
  · rwa [h, pc_add_toNat hfit]
  · rw [h, wordToPc_toNat]
    exact (word_lt_memSlots w).le

/-- An instruction keeps the canonical form of memory. -/
theorem ExecEffect.mem_wf {s t : State} {i : Instr} (e : ExecEffect s i t) (hm : s.mem.wf = true) :
    t.mem.wf = true := by
  obtain h | ⟨⟨a, v, h⟩, -⟩ := e.mem_cases
  · rwa [h]
  · exact memWrite_wf _ _ a v hm h

theorem ExecEffect.frecOk {s t : State} {i : Instr} (e : ExecEffect s i t) (hf : s.frec = none) :
    t.frecOk = true := by
  obtain ⟨k, fop, rfl⟩ | ⟨hr, h⟩ := e.fault_or_frec_eq
  · exact frecOk_takeFault s k fop
  · exact frecOk_of_none hr (h.trans hf)

theorem step_keeps_inv {s t : State} (hs : Inv s) (h : step s = .next t) : Inv t := by
  obtain ⟨-, hterm⟩ | ⟨hr, -⟩ := step_cases s
  · cases hterm.symm.trans h
    exact hs
  · obtain ⟨k, fop, rfl⟩ | ⟨i, hd, e⟩ := step_fault_or_effect hr h
    · exact inv_takeFault hs k fop
    · obtain ⟨hpc, hmem, hfrec⟩ := hs
      obtain ⟨-, hfit, -⟩ := fetchDecode_instr hd
      have hnone : s.frec = none := frec_none_of_frecOk hfrec (ne_faulted_of_steps hr)
      exact ⟨e.pc_le hpc hfit, e.mem_wf hmem, e.frecOk hnone⟩

/-- A loaded core is the reset core but for its memory, which holds an image that fits (R221). -/
theorem load_next {ws : List Raw} {t : State} (h : load ws = .next t) :
    ws.length ≤ Config.memSlots ∧ t = { State.reset with mem := Memory.ofImage ws } := by
  unfold load at h
  split at h
  · next hl => exact ⟨hl, by simpa [eq_comm] using h⟩
  · cases h

theorem load_inv {ws : List Raw} {t : State} (h : load ws = .next t) : Inv t := by
  obtain ⟨hl, rfl⟩ := load_next h
  exact ⟨inv_reset.1, ofImage_wf ws hl, rfl⟩

theorem loadImage_inv {bs : List Byte} {t : State} (h : loadImage bs = .next t) : Inv t := by
  unfold loadImage at h
  split at h
  · cases h
  · exact load_inv h

/-- A supply makes a core `Running` only out of `Suspended`, so the fault record stays right (R224). -/
theorem supply_keeps_inv {bs : List Nat} {s t : State} (hs : Inv s) (h : supply bs s = .next t) : Inv t := by
  unfold supply at h
  split at h
  · obtain ⟨hpc, hmem, hfrec⟩ := hs
    cases h
    refine ⟨hpc, hmem, ?_⟩
    split
    · next hc =>
      have hsusp : s.run = .suspended := by simp_all
      exact frecOk_of_none nofun (frec_none_of_frecOk (s := s) hfrec (by simp [hsusp]))
    · exact hfrec
  · cases h

/-- A snapshot that restores has the invariants' own bounds, and the record is cleared (R228; decision D25). -/
theorem restore_inv {c : Snapshot} {s t : State} (h : restore c s = .next t) : Inv t := by
  unfold restore at h
  split at h
  · next hw =>
    simp only [Snapshot.wf, Bool.and_eq_true, decide_eq_true_eq] at hw
    obtain ⟨hpc, hmem⟩ := hw
    cases h
    exact ⟨hpc, hmem, rfl⟩
  · cases h

theorem act_keeps_inv {x : HostAction} {s t : State} (hs : Inv s) (h : x.act s = .next t) : Inv t := by
  cases x with
  | construct => cases h; exact inv_reset
  | load ws => exact load_inv h
  | loadImage bs => exact loadImage_inv h
  | step => exact step_keeps_inv hs h
  | supply bs => exact supply_keeps_inv hs h
  | restore c => exact restore_inv h

theorem run_keeps_inv {xs : List HostAction} : ∀ {s t : State}, Inv s → Run s xs t → Inv t := by
  induction xs with
  | nil => rintro s t hs ⟨-, h⟩; cases h; exact hs
  | cons x xs ih =>
    intro s t hs h
    obtain ⟨-, u, hu, hrest⟩ := run_cons h
    exact ih (act_keeps_inv hs hu) hrest

end Sys2Proof.Machine

/-! ### The obligations -/

namespace Sys2Proof.Proofs

open Sys2Proof.Machine Sys2Proof.Claims

/-- Settles O35: a terminal state is left as it is, a fault keeps `pc` and memory, and a decoded instruction fits below
the top of memory, so its advance stays in 0..32768. -/
theorem stepKeepsInvariants : Obligations.StepKeepsInvariants := fun _ _ => step_keeps_inv

/-- Settles O37: by cases on the move, then by induction on the run's moves from a loaded core. -/
theorem hostMovesKeepInvariants : Obligations.HostMovesKeepInvariants := by
  refine ⟨fun _ _ _ => act_keeps_inv, ?_⟩
  rintro s t xs ⟨ws, hload⟩ hrun
  exact run_keeps_inv (load_inv hload) hrun

/-- Settles O39: the decoder reads `i`, which fits below the top of memory, so adding its length to `pc` does not wrap. -/
theorem sequentialAdvanceIsNotReduced : Obligations.SequentialAdvanceIsNotReduced := by
  intro s t i hr hw hslots hop hstep hrun
  have hd := fetchDecode_of_slotsAt hw hslots
  obtain ⟨-, hfit, -⟩ := fetchDecode_instr hd
  have he : ExecEffect s i t := exec_next ((step_eq_exec hr hd).symm.trans hstep)
  obtain ⟨-, hstop⟩ | hpc | ⟨-, hjump⟩ := he.pc_cases
  · exact absurd hrun hstop
  · rw [hpc, pc_add_toNat hfit, Instr.length, operands_length]
    omega
  · exact absurd hjump hop

/-- Settles O40: only a completed instruction with a destination slot writes a register, and it writes that one. -/
theorem onlyDestinationRegisterChanges : Obligations.OnlyDestinationRegisterChanges := by
  intro s t r hr hstep hne
  obtain ⟨k, fop, rfl⟩ | ⟨i, hd, e⟩ := step_fault_or_effect hr hstep
  · exact absurd rfl hne
  · obtain h | ⟨q, v, h, hrun, hw, hdest, hrole⟩ := e.regs_cases
    · exact absurd (by rw [h]) hne
    · have hq : q = r := by
        by_contra hqr
        have hval : q.val ≠ r.val := fun hv => hqr (Fin.ext hv)
        exact hne (by simp [h, hval])
      exact ⟨hrun, i, hw, slotsAt_of_fetchDecode hd, hq ▸ hdest, hrole⟩

/-- Settles O41, by what the decoded instruction does to the stack; a fault leaves it. -/
theorem stackChangesOnlyAtTheTop : Obligations.StackChangesOnlyAtTheTop := by
  intro s t hr hstep
  obtain ⟨k, fop, rfl⟩ | ⟨i, hd, e⟩ := step_fault_or_effect hr hstep
  · exact .inl rfl
  · obtain h | ⟨v, h, ho⟩ | ⟨v, h, ho⟩ := e.stack_cases
    · exact .inl h
    · exact .inr (.inl ⟨v, h, ho.imp (memRead_of_fetchDecode hd) (memRead_of_fetchDecode hd)⟩)
    · exact .inr (.inr ⟨v, h, ho.imp (memRead_of_fetchDecode hd) (memRead_of_fetchDecode hd)⟩)

/-- Settles O42: an instruction that wrote memory is a `wmem`, whose slot stands at `pc`. -/
theorem onlyWmemWritesMemory : Obligations.OnlyWmemWritesMemory := by
  intro s t hr hstep hop
  obtain ⟨k, fop, rfl⟩ | ⟨i, hd, e⟩ := step_fault_or_effect hr hstep
  · rfl
  · obtain h | ⟨-, ho⟩ := e.mem_cases
    · exact h
    · exact absurd (memRead_of_fetchDecode hd ho) hop

/-- Settles O44, by what the decoded instruction does to each channel; a fault leaves both. -/
theorem channelsMoveOneByteInOrder : Obligations.ChannelsMoveOneByteInOrder := by
  intro s t hr hstep
  obtain ⟨k, fop, rfl⟩ | ⟨i, hd, e⟩ := step_fault_or_effect hr hstep
  · exact ⟨.inl rfl, .inl rfl⟩
  · exact ⟨e.outlog_cases.imp_right fun ⟨⟨b, h⟩, ho⟩ => ⟨b, h, memRead_of_fetchDecode hd ho⟩,
      e.inq_cases.imp_right fun ⟨⟨b, h⟩, ho⟩ => ⟨b, h, memRead_of_fetchDecode hd ho⟩⟩

/-- Settles O36, by evaluating each clause in the reset state. -/
theorem resetHasInvariants : Obligations.ResetHasInvariants := inv_reset

/-- Settles O38: memory lists no cell, so every slot reads 0, the opcode slot at `pc` among them, which is that of `halt`. -/
theorem resetStateIsZeroAndHaltsUnloaded : Obligations.ResetStateIsZeroAndHaltsUnloaded := by
  have hregs : ∀ r : RegIdx, State.reset.regs[r] = 0 := by simp [State.reset, Config.resetReg]
  have hmem : ∀ n < 32768, memRead State.reset.mem n = some 0 := fun n hn => if_pos hn
  have hd : fetchDecode State.reset = .instr .halt := rfl
  have hstep : step State.reset = .next { State.reset with run := .halted } := by
    rw [step_eq_exec rfl hd]
    rfl
  exact ⟨hregs, rfl, rfl, hmem, rfl, rfl, rfl, rfl, hstep⟩

end Sys2Proof.Proofs

/-! PROOFS. The family of spec/20_memory.md: the bounds of an access (R54), what a write changes and leaves (R55), what a
step can put into a slot (R65), and the slots a fetch sees after a store (R62). -/

/-! ### A read after a write -/

namespace Sys2Proof.Machine

open Sys2Proof.Claims

/-- Memory after one slot is replaced, at every address (R55). -/
theorem memRead_put {m : Memory} {a : Nat} (ha : a < Config.memSlots) (w : Raw) (n : Nat) :
    memRead (m.put a w) n = if n = a then some w else memRead m n := by
  split
  · next h => rw [h, memRead_put_same m a w ha]
  · next h => exact memRead_put_other m a n w h

theorem memWrite_none (m : Memory) (a : Nat) (v : Word) : memWrite m a v = none ↔ Config.memSlots ≤ a := by
  unfold memWrite
  split <;> simp_all

/-- A slot after a memory write reads as before, or reads a Word's number (R55, R65). -/
theorem memRead_memWrite_cases {m m' : Memory} {a n : Nat} {v : Word} {w : Raw} (hm : memWrite m a v = some m')
    (h : memRead m' n = some w) : memRead m n = some w ∨ w.toNat < 32768 := by
  obtain ⟨ha, rfl⟩ := (memWrite_some m m' a v).1 hm
  rw [memRead_put ha] at h
  split at h
  · cases h
    exact .inr (wordToSlot_toNat v ▸ v.isLt)
  · exact .inl h

/-- A step leaves memory, or writes one Word to one slot of it (R27, R53). -/
theorem step_mem_cases {s t : State} (h : step s = .next t) :
    t.mem = s.mem ∨ ∃ (a : Nat) (v : Word), memWrite s.mem a v = some t.mem := by
  obtain ⟨-, hterm⟩ | ⟨hr, -⟩ := step_cases s
  · cases hterm.symm.trans h
    exact .inl rfl
  · obtain ⟨k, fop, rfl⟩ | ⟨i, -, e⟩ := step_fault_or_effect hr h
    · exact .inl rfl
    · exact e.mem_cases.imp_right And.left

/-! ### A fetch after a store -/

/-- The slots a fetch is offered after one slot is replaced: the new one at its place, the others as before (R62). -/
theorem slotsFrom_put_getElem? {m : Memory} {a : Nat} (ha : a < Config.memSlots) (w : Raw) (p n j : Nat) :
    (slotsFrom (m.put a w) p n)[j]? = if j < n ∧ p + j = a then some w else (slotsFrom m p n)[j]? := by
  by_cases hj : j < n
  · simp [slotsFrom_getElem?, memRead_put ha, hj]
  · simp [slotsFrom_getElem?, hj]

/-- `Resolves` is what `val` answers for a legal value operand (R83). -/
theorem val_of_resolves {s : State} {o : Operand} {v : Word} (h : Resolves s o v) : s.val o = .ok v := by
  cases o with
  | lit u => exact congrArg Except.ok h.symm
  | reg r => exact congrArg Except.ok h.symm
  | invalid w => exact h.elim

/-- `wmem` with both operands resolved stores and advances; it cannot fault (R180, R182). -/
theorem exec_wmem_of_val {s : State} {a b : Operand} {ea v : Word} (ha : s.val a = .ok ea) (hb : s.val b = .ok v) :
    exec (.wmem a b) s = .next (State.advance { s with mem := s.mem.put ea.toNat (wordToSlot v) } 3) := by
  obtain ⟨hstore, -⟩ := storeWord_ok s.mem ea v
  simp [exec, execWmem, ha, hb, hstore]

theorem slotsAt_singleton {m : Memory} {a : Nat} {w : Raw} : SlotsAt m a [w] ↔ memRead m a = some w := by
  simp [SlotsAt, List.getElem?_singleton]

/-- A step at an opcode slot of `noop` advances over it and does nothing else (R205). -/
theorem step_of_noop_slot {s : State} (hr : s.run.steps = true)
    (h : memRead s.mem s.pc.toNat = some Opcode.noop.slot) : step s = .next (s.advance 1) := by
  have hd : fetchDecode s = .instr .noop := fetchDecode_of_slotsAt rfl (slotsAt_singleton.2 h)
  rw [step_eq_exec hr hd]
  rfl

/-- A Word that is an opcode's number is stored as that opcode's slot (R81, R182). -/
theorem wordToSlot_eq_slot {v : Word} {op : Opcode} (h : v.toNat = op.number) : wordToSlot v = op.slot :=
  BitVec.eq_of_toNat_eq (by rw [wordToSlot_toNat, slot_toNat, h])

end Sys2Proof.Machine

/-! ### The obligations -/

namespace Sys2Proof.Proofs

open Sys2Proof.Machine Sys2Proof.Claims

/-- Settles O43: a step writes at most one slot, and what it writes is a Word. -/
theorem noStepStoresAboveWordMax : Obligations.NoStepStoresAboveWordMax := by
  intro s t n w hstep hread
  obtain hmem | ⟨a, v, hwrite⟩ := step_mem_cases hstep
  · exact .inl (hmem ▸ hread)
  · exact (memRead_memWrite_cases hwrite hread).imp_right Nat.le_of_lt_succ

/-- Settles O47: inside memory a write is `put`, whose reads at the address and elsewhere and whose form are known. -/
theorem memoryWriteReplacesOneSlot : Obligations.MemoryWriteReplacesOneSlot := by
  refine fun m a v => ⟨(memWrite_none m a v).2, fun ha => ?_⟩
  exact ⟨m.put a (wordToSlot v), wordToSlot v, (memWrite_some _ _ _ _).2 ⟨ha, rfl⟩, memRead_put_same m a _ ha,
    wordToSlot_toNat v, fun n hn => memRead_put_other m a n _ hn, put_wf m a _ ha⟩

/-- Settles O49: a `wmem` that completes replaces one slot; where that slot is the next one fetched, the step reads the
stored Word as its opcode. -/
theorem fetchSeesStoredOpcode : Obligations.FetchSeesStoredOpcode := by
  intro s t a b ea v ha hb hexec
  have hea := word_lt_memSlots ea
  cases (exec_wmem_of_val (val_of_resolves ha) (val_of_resolves hb)).symm.trans hexec
  refine ⟨fun p j => slotsFrom_put_getElem? hea (wordToSlot v) p 4 j, fun hpc hv => ?_⟩
  refine step_of_noop_slot rfl ?_
  rw [hpc, ← wordToSlot_eq_slot (op := .noop) hv]
  exact memRead_put_same s.mem ea.toNat _ hea

/-- Settles O46, by where a read answers none and where it answers a slot. -/
theorem memoryReadChecksBounds : Obligations.MemoryReadChecksBounds := fun m a =>
  ⟨(memRead_none m a).2, fun ha => Option.isSome_iff_exists.1 ((memRead_isSome m a).2 ha)⟩

end Sys2Proof.Proofs

/-! PROOFS. The family of spec/30_encoding.md: the three classes of an operand slot and what they resolve to (R82 to R84),
and the decoder and the encoder as each other's inverse (R89, R91). -/

/-! ### The class of a slot by its number, and the slots a decoded instruction stands in -/

namespace Sys2Proof

theorem classify_of_le {w : Raw} (h : w.toNat ≤ 32767) : ∃ v : Word, v.toNat = w.toNat ∧ classify w = .lit v := by
  obtain ⟨-, hlit⟩ | ⟨r, hr, -⟩ | ⟨hw, -⟩ := classify_cases w
  · exact hlit
  · omega
  · omega

theorem classify_of_reg {w : Raw} {r : RegIdx} (h : w.toNat = 32768 + r.val) : classify w = .reg r := by
  obtain ⟨hw, -⟩ | ⟨q, hq, hreg⟩ | ⟨hw, -⟩ := classify_cases w
  · omega
  · have hqr : q = r := Fin.ext (by omega)
    exact hqr ▸ hreg
  · omega

theorem classify_of_ge {w : Raw} (h : 32776 ≤ w.toNat) : classify w = .invalid w := by
  obtain ⟨hw, -⟩ | ⟨r, hr, -⟩ | ⟨-, hinv⟩ := classify_cases w
  · omega
  · omega
  · exact hinv

/-- A decoded instruction encodes to the first slots it was read from, illegal operand slots included (R82, R89). -/
theorem encode_isPrefix_of_decode {ws : List Raw} {i : Instr} (h : decode ws = .instr i) : encode i <+: ws := by
  obtain ⟨-, hd⟩ | ⟨w, rest, -, -, hd⟩ | ⟨j, rest, rfl, hops, -, hd⟩ | ⟨op, rest, -, -, hd⟩ := decode_cases ws
  · cases hd.symm.trans h
  · cases hd.symm.trans h
  · cases hd.symm.trans h
    have hslots : i.operands.map Operand.slot = rest.take i.opcode.arity := by
      rw [hops, List.map_map]
      exact List.map_id'' slot_classify _
    rw [encode, hslots]
    exact (List.prefix_cons_inj _).2 (List.take_prefix _ _)
  · cases hd.symm.trans h

end Sys2Proof

/-! ### The obligations -/

namespace Sys2Proof.Proofs

open Sys2Proof.Machine Sys2Proof.Claims

/-- Settles O53: the opcode slot names its opcode, each legal operand is the class of its slot, and the opcode is built
from exactly its own operands, whatever follows. -/
theorem decodeOfEncodeIsTheInstruction : Obligations.DecodeOfEncodeIsTheInstruction := fun _ rest hw =>
  decode_encode_append hw rest

/-- Settles O45, by the class each range of slots has. -/
theorem operandFormsResolve : Obligations.OperandFormsResolve := by
  refine fun s w => ⟨fun h => ?literal, fun r h => ?register, fun h => ?invalid⟩
  case literal =>
    obtain ⟨v, hv, hc⟩ := classify_of_le h
    rw [hc]
    exact ⟨⟨v, val_lit s v, hv⟩, dst_lit v⟩
  case register =>
    rw [classify_of_reg h]
    exact ⟨val_reg s r, dst_reg r⟩
  case invalid =>
    rw [classify_of_ge h]
    exact ⟨val_invalid s w, dst_invalid w⟩

/-- Settles O54: the encoding is a prefix of the slots, as long as the instruction. -/
theorem encodeOfDecodeIsTheSlots : Obligations.EncodeOfDecodeIsTheSlots := by
  intro ws i h
  have hprefix := encode_isPrefix_of_decode h
  rw [← encode_length]
  exact ⟨hprefix.length_le, List.prefix_iff_eq_take.1 hprefix⟩

/-- Settles O55, by evaluating the decoder on each of the words. -/
theorem sampleWordsDecode : Obligations.SampleWordsDecode := by
  unfold Obligations.SampleWordsDecode
  decide

end Sys2Proof.Proofs

/-! PROOFS. The family of spec/40_execution_cycle.md: the phases of a step and the ways it ends (R111 to R118), the trace
(R120), and what a run depends on (R119). -/

/-! ### The ways a step ends, and the fetch and operand phases -/

namespace Sys2Proof.Machine

open Sys2Proof.Claims

/-- Taking a fault is the end that `EndsInFault` asks for (R115, R260). -/
theorem endsInFault_takeFault (s : State) (k : FaultKind) (fop : Option Raw) :
    EndsInFault k s (.next (s.takeFault k fop)) :=
  ⟨_, _, rfl, rfl, rfl, rfl, rfl, rfl, rfl, rfl, rfl⟩

theorem FaultCause.wellFormed_or_illegal {s : State} {i : Instr} {k : FaultKind} (h : FaultCause s i k) :
    i.wellFormed = true ∨ k = .invalidOperandEncoding := by
  cases h with
  | illegal => exact .inr rfl
  | popEmpty | retEmpty => exact .inl rfl
  | modZero r a b la lb => exact .inl (by simp [Instr.wellFormed, la, lb])
  | nonWord r a ea w ha la | callTop a la => exact .inl la

/-- An instruction that is not well-formed does nothing but raise `InvalidOperandEncoding` (R113). -/
theorem ExecEffect.wellFormed_or_fault {s t : State} {i : Instr} (e : ExecEffect s i t) :
    i.wellFormed = true ∨ t = s.takeFault .invalidOperandEncoding (some i.opcode.slot) := by
  cases e with
  | fault _ k h => exact h.wellFormed_or_illegal.imp_right (by rintro rfl; rfl)
  | write _ _ _ hw | jump _ _ hw | fall _ hw => exact .inl hw
  | push _ _ _ la | call _ _ _ _ la | out _ _ _ la => exact .inl la
  | store _ _ _ _ _ _ _ la lb => exact .inl (by simp [Instr.wellFormed, la, lb])
  | pop | inp | starved | ret | halt => exact .inl rfl

/-- An instruction with an illegal operand raises `InvalidOperandEncoding`, whatever the state (R252). -/
theorem exec_of_not_wellFormed {i : Instr} (hw : i.wellFormed = false) (s : State) :
    exec i s = .next (s.takeFault .invalidOperandEncoding (some i.opcode.slot)) := by
  obtain ⟨t, hx, e⟩ := exec_effect i s
  obtain h | rfl := e.wellFormed_or_fault
  · simp [hw] at h
  · exact hx

/-- The four ways a step from a state that can step ends (R114 to R117): a fault, whose record names the opcode slot as it
stands in memory; a completed instruction; a `halt`; a starved `in`. -/
inductive StepEnd (s : State) : State → Prop where
  | faulted (k : FaultKind) : StepEnd s (s.takeFault k (memRead s.mem s.pc.toNat))
  | completed (i : Instr) (t : State) (hd : fetchDecode s = .instr i) (hw : i.wellFormed = true)
      (hrun : t.run = .running) (hfrec : t.frec = s.frec) : StepEnd s t
  | halted (hd : fetchDecode s = .instr .halt) : StepEnd s s.halt
  | suspended (r : RegIdx) (hd : fetchDecode s = .instr (.inp (.reg r))) (hq : s.inq = []) : StepEnd s s.suspend

theorem StepEnd.of_memRead {s : State} {fop : Option Raw} (h : memRead s.mem s.pc.toNat = fop) (k : FaultKind) :
    StepEnd s (s.takeFault k fop) :=
  h ▸ .faulted k

theorem ExecEffect.stepEnd {s t : State} {i : Instr} (hd : fetchDecode s = .instr i) (e : ExecEffect s i t) :
    StepEnd s t := by
  have hop := memRead_of_fetchDecode hd rfl
  obtain hw | rfl := e.wellFormed_or_fault
  · cases e with
    | fault _ k => exact .of_memRead hop k
    | halt => exact .halted hd
    | starved r hq => exact .suspended r hd hq
    | _ => exact .completed _ _ hd hw rfl rfl
  · exact .of_memRead hop _

/-- Every step from a state that can step ends in one of the four ways. -/
theorem stepEnd_of_step {s t : State} (hr : s.run.steps = true) (h : step s = .next t) : StepEnd s t := by
  cases step_next hr h with
  | outside hp => exact .of_memRead ((memRead_none _ _).2 hp) _
  | unknown w hw => exact .of_memRead hw _
  | short op hop => exact .of_memRead hop _
  | run i _ hd _ e => exact e.stepEnd hd

/-- Only the fault ends `Faulted` (R115). -/
theorem StepEnd.of_faulted {s t : State} (e : StepEnd s t) (h : t.run = .faulted) :
    ∃ k, t = s.takeFault k (memRead s.mem s.pc.toNat) := by
  cases e with
  | faulted k => exact ⟨k, rfl⟩
  | completed _ _ _ _ hrun => cases hrun.symm.trans h
  | halted | suspended => cases h

/-- Only a `halt` ends `Halted` (R117). -/
theorem StepEnd.of_halted {s t : State} (e : StepEnd s t) (h : t.run = .halted) :
    fetchDecode s = .instr .halt ∧ t = s.halt := by
  cases e with
  | halted hd => exact ⟨hd, rfl⟩
  | completed _ _ _ _ hrun => cases hrun.symm.trans h
  | faulted | suspended => cases h

/-- Only a starved `in` ends `Suspended` (R116). -/
theorem StepEnd.of_suspended {s t : State} (e : StepEnd s t) (h : t.run = .suspended) :
    s.inq = [] ∧ (∃ r, fetchDecode s = .instr (.inp (.reg r))) ∧ t = s.suspend := by
  cases e with
  | suspended r hd hq => exact ⟨hq, ⟨r, hd⟩, rfl⟩
  | completed _ _ _ _ hrun => cases hrun.symm.trans h
  | faulted | halted => cases h

/-- A step that ends `Running` or `Halted` ran a well-formed instruction (R113, R114). -/
theorem StepEnd.of_done {s t : State} (e : StepEnd s t) (h : t.run = .running ∨ t.run = .halted) :
    ∃ i, fetchDecode s = .instr i ∧ i.wellFormed = true := by
  cases e with
  | completed i _ hd hw => exact ⟨i, hd, hw⟩
  | halted hd => exact ⟨.halt, hd, rfl⟩
  | faulted | suspended => obtain h | h := h <;> cases h

/-- A step that does not fault leaves the fault record (R29). -/
theorem StepEnd.frec_eq {s t : State} (e : StepEnd s t) (h : t.run ≠ .faulted) : t.frec = s.frec := by
  cases e with
  | faulted => exact absurd rfl h
  | completed _ _ _ _ _ hfrec => exact hfrec
  | halted | suspended => rfl

/-- A step leaves no `Ready` state, so a core that can go on is `Running` or waits (R28). -/
theorem StepEnd.running_of_steps {s t : State} (e : StepEnd s t) (h : t.run.steps = true) (hs : t.run ≠ .suspended) :
    t.run = .running := by
  cases e with
  | completed _ _ _ _ hrun => exact hrun
  | suspended => exact absurd rfl hs
  | faulted | halted => cases h

/-- Every way a step ends has its report (R118). -/
theorem StepEnd.report_eq {s t : State} (e : StepEnd s t) :
    report t = some .continued ∨ report t = some .halted ∨ report t = some .suspended ∨
      ∃ r, t.frec = some r ∧ report t = some (.faulted r.kind r.fpc r.fop) := by
  cases e with
  | completed _ _ _ _ hrun => exact .inl (by simp [report, hrun])
  | halted => exact .inr (.inl rfl)
  | suspended => exact .inr (.inr (.inl rfl))
  | faulted => exact .inr (.inr (.inr ⟨_, rfl, rfl⟩))

/-- A terminal state is left as it is (R110; decision D12). -/
theorem step_of_terminal {s : State} (h : s.run.steps = false) : step s = .next s := by
  simp [step, h]

theorem step_total (s : State) : ∃ t, step s = .next t :=
  inRun_next (x := .step) rfl s

/-- The opcode fetch outside memory (R111). -/
theorem step_of_pc_outside {s : State} (hr : s.run.steps = true) (h : Config.memSlots ≤ s.pc.toNat) :
    step s = .next (s.takeFault .outOfRange none) := by
  have hm : memRead s.mem s.pc.toNat = none := (memRead_none _ _).2 h
  simp [step, hr, fetchDecode, slotsFrom, hm, decode]

/-- An opcode slot that names no opcode (R112), whatever follows it. -/
theorem step_of_unknown_slot {s : State} {w : Raw} (hr : s.run.steps = true)
    (h : memRead s.mem s.pc.toNat = some w) (hw : 21 < w.toNat) :
    step s = .next (s.takeFault .unknownOpcode (some w)) := by
  simp [step, hr, fetchDecode, slotsFrom, h, decode, (ofSlot_eq_none w).2 hw]

/-- A step at an opcode slot of `halt` halts (R204). -/
theorem step_of_halt_slot {s : State} (hr : s.run.steps = true)
    (h : memRead s.mem s.pc.toNat = some Opcode.halt.slot) : step s = .next s.halt := by
  have hd : fetchDecode s = .instr .halt := fetchDecode_of_slotsAt rfl (slotsAt_singleton.2 h)
  rw [step_eq_exec hr hd]
  rfl

/-- A step at an `in` with a legal destination suspends on an empty queue (R116, R203). -/
theorem step_of_starved_inp {s : State} {r : RegIdx} (hr : s.run.steps = true) (hq : s.inq = [])
    (h : SlotsAt s.mem s.pc.toNat (encode (.inp (.reg r)))) : step s = .next s.suspend := by
  rw [step_eq_exec hr (fetchDecode_of_slotsAt rfl h)]
  simp [exec, execIn, inTake_nil s hq]

theorem slot_injective {op op' : Opcode} (h : op.slot = op'.slot) : op = op' :=
  Option.some.inj ((ofSlot_slot op).symm.trans (h ▸ ofSlot_slot op'))

/-- R86's table gives each opcode its roles. -/
theorem roleTable_number (op : Opcode) : roleTable[op.number]? = some op.roles := by cases op <;> rfl

/-! ### The operand phase as the spec's loop -/

/-- An operand slot is legal in a role by its number exactly when its class is accepted there (R82 to R84). -/
theorem accepts_classify (role : Role) (w : Raw) : role.accepts (classify w) = true ↔ LegalSlot role w := by
  cases role with
  | dest =>
    obtain ⟨hw, v, -, hc⟩ | ⟨r, hw, hc⟩ | ⟨hw, hc⟩ := classify_cases w <;>
      simp [hc, Role.accepts, Operand.legalDest, LegalSlot] <;> omega
  | value =>
    obtain ⟨hw, v, -, hc⟩ | ⟨r, hw, hc⟩ | ⟨hw, hc⟩ := classify_cases w <;>
      simp [hc, Role.accepts, Operand.legalValue, LegalSlot] <;> omega

/-- The check of the loop is that the slot is not legal in its role. -/
theorem loopCheck_iff (role : Role) (w : Raw) :
    ((role = .dest ∧ (w.toNat < 32768 ∨ 32775 < w.toNat)) ∨ (role = .value ∧ 32775 < w.toNat)) ↔
      ¬ LegalSlot role w := by
  cases role with
  | dest => simp [LegalSlot]; omega
  | value => simp [LegalSlot]

/-- The fault of operands read all at once: an illegal one among those present, or else a missing one (R113;
decision D8). -/
def operandFault (roles : List Role) (got : List Operand) : Option FaultKind :=
  if (roles.zip got).all (fun (r, o) => r.accepts o) then
    if got.length < roles.length then some .outOfRange else none
  else some .invalidOperandEncoding

theorem operandFault_cons (role : Role) (roles : List Role) (o : Operand) (got : List Operand) :
    operandFault (role :: roles) (o :: got) =
      if role.accepts o = true then operandFault roles got else some .invalidOperandEncoding := by
  cases h : role.accepts o
  · simp [operandFault, h]
  · simp only [operandFault, List.zip_cons_cons, List.all_cons, h, Bool.true_and, List.length_cons, if_true,
      Nat.add_lt_add_iff_right]

/-- The loop that fetches and checks slot by slot finds the fault of the slots read all at once. -/
theorem firstOperandFault_eq (m : Memory) (roles : List Role) :
    ∀ a n, roles.length ≤ n →
      firstOperandFault m roles a = operandFault roles ((slotsFrom m a n).map classify) := by
  induction roles with
  | nil => intro a n _; simp [firstOperandFault, operandFault]
  | cons role roles ih =>
    rintro a (_ | n) hn
    · simp at hn
    cases hm : memRead m a with
    | none => simp [firstOperandFault, slotsFrom, hm, operandFault]
    | some w =>
      have hrest := ih (a + 1) n (by simpa using hn)
      simp only [firstOperandFault, slotsFrom, hm, List.map_cons, operandFault_cons]
      by_cases hl : LegalSlot role w
      · rw [if_neg (by rwa [loopCheck_iff, not_not]), if_pos ((accepts_classify role w).2 hl), hrest]
      · rw [if_pos ((loopCheck_iff role w).2 hl), if_neg (by rwa [accepts_classify])]

theorem operandFault_append (roles : List Role) (ops rest : List Operand) (h : ops.length = roles.length) :
    operandFault roles (ops ++ rest) =
      if (roles.zip ops).all (fun (r, o) => r.accepts o) then none else some .invalidOperandEncoding := by
  have hzip : roles.zip (ops ++ rest) = roles.zip ops := by
    simpa using List.zip_append (r₁ := []) (r₂ := rest) h.symm
  have hlen : ¬ (ops ++ rest).length < roles.length := by simp [h]
  rw [operandFault, hzip, if_neg hlen]

/-- The loop over a whole instruction faults exactly where it is not well-formed (R88). -/
theorem firstOperandFault_of_instr {s : State} {i : Instr} (hd : fetchDecode s = .instr i) :
    firstOperandFault s.mem i.opcode.roles (s.pc.toNat + 1) =
      if i.wellFormed = true then none else some .invalidOperandEncoding := by
  obtain ⟨-, -, hops⟩ := fetchDecode_instr hd
  rw [firstOperandFault_eq _ _ _ 3 (arity_le _), wellFormed_eq]
  have hsplit := (List.take_append_drop i.opcode.arity ((slotsFrom s.mem (s.pc.toNat + 1) 3).map classify)).symm
  rw [← List.map_take, ← hops] at hsplit
  rw [hsplit, operandFault_append _ _ _ (operands_length i)]

/-- Memory that ends before the last operand slot: the loop finds the fault the step takes. -/
theorem firstOperandFault_of_short (m : Memory) {op : Opcode} {a : Nat} (ha : a ≤ Config.memSlots)
    (hf : Config.memSlots < a + op.arity) :
    firstOperandFault m op.roles a = some (truncatedFault op ((slotsFrom m a 3).map classify)) := by
  have hlen : ((slotsFrom m a 3).map classify).length < op.roles.length := by
    have hlen := slotsFrom_length m 3 a
    have harity : op.arity = op.roles.length := rfl
    rw [List.length_map]
    omega
  rw [firstOperandFault_eq _ _ _ 3 (arity_le op), operandFault, truncatedFault, if_pos hlen]
  split <;> rfl

/-! ### The trace -/

/-- A step that neither completes nor halts emits no record (R120). -/
theorem traceRecord_of_not_done {s t : State} (h : step s = .next t) (h1 : t.run ≠ .running) (h2 : t.run ≠ .halted) :
    traceRecord s = none := by
  unfold traceRecord
  cases fetchDecode s <;> simp [h, h1, h2]

theorem traceRecord_of_terminal {s : State} (h : s.run.steps = false) : traceRecord s = none := by
  simp [traceRecord, h]

/-- The operands a record of an instruction shows, read in the state before it. -/
def traceOperands (s : State) (i : Instr) : List TraceOperand :=
  (i.opcode.roles.zip i.operands).filterMap fun (r, o) => traceOperand s r o

/-- The record of a step that completes or halts (R230). -/
theorem traceRecord_of_done {s t : State} {i : Instr} (hr : s.run.steps = true) (hd : fetchDecode s = .instr i)
    (h : step s = .next t) (hdone : t.run = .running ∨ t.run = .halted) :
    traceRecord s = some { pc := s.pc, opcode := i.opcode.slot, operands := traceOperands s i } := by
  simp [traceRecord, traceOperands, hr, hd, h, hdone]

/-- The trace shows exactly the operands that are legal in their role. -/
theorem traceOperand_isSome (s : State) (role : Role) (o : Operand) :
    (traceOperand s role o).isSome = role.accepts o := by
  cases role <;> cases o <;> rfl

/-- A destination is shown by its register, a value by the Word it resolves to (R230). -/
theorem traceOperand_dest {s : State} {role : Role} {o : Operand} {r : RegIdx}
    (h : traceOperand s role o = some (.dest r)) : role = .dest ∧ o = .reg r := by
  cases role <;> cases o <;> simp_all [traceOperand]

theorem traceOperand_value {s : State} {role : Role} {o : Operand} {v : Word}
    (h : traceOperand s role o = some (.value v)) : role = .value ∧ Resolves s o v := by
  cases role <;> cases o <;> simp_all [traceOperand, Resolves, State.reg]

/-- `filterMap` of a function that answers everywhere keeps every place. -/
theorem map_some_filterMap {α β : Type} {f : α → Option β} {l : List α} (h : ∀ x ∈ l, (f x).isSome = true) :
    (l.filterMap f).map some = l.map f := by
  induction l with
  | nil => rfl
  | cons x l ih =>
    obtain ⟨y, hy⟩ := Option.isSome_iff_exists.1 (h x List.mem_cons_self)
    simp [hy, ih fun z hz => h z (List.mem_cons_of_mem x hz)]

/-- A record of a well-formed instruction leaves out none of its operands (R230). -/
theorem traceOperands_map_some {i : Instr} (hw : i.wellFormed = true) (s : State) :
    (traceOperands s i).map some = (i.opcode.roles.zip i.operands).map fun (r, o) => traceOperand s r o := by
  refine map_some_filterMap fun x hx => ?_
  rw [wellFormed_eq, List.all_eq_true] at hw
  exact (traceOperand_isSome s x.1 x.2).trans (hw x hx)

theorem traceOperands_length {i : Instr} (hw : i.wellFormed = true) (s : State) :
    (traceOperands s i).length = i.operands.length := by
  have h := congrArg List.length (traceOperands_map_some hw s)
  have hroles : i.opcode.roles.length = i.operands.length := (operands_length i).symm
  simpa [hroles] using h

/-- Each place of a record shows the operand of that place, in the role the opcode gives it. -/
theorem traceOperand_of_getElem? {s : State} {i : Instr} {n : Nat} {o : Operand} {y : TraceOperand}
    (hw : i.wellFormed = true) (ho : i.operands[n]? = some o) (hy : (traceOperands s i)[n]? = some y) :
    ∃ role, i.opcode.roles[n]? = some role ∧ traceOperand s role o = some y := by
  have h := congrArg (·[n]?) (traceOperands_map_some hw s)
  simp only [List.getElem?_map, hy, Option.map_some] at h
  obtain ⟨⟨role, o'⟩, hz, hshow⟩ := Option.map_eq_some_iff.1 h.symm
  obtain ⟨hrole, ho'⟩ := List.getElem?_zip_eq_some.1 hz
  cases ho.symm.trans ho'
  exact ⟨role, hrole, hshow⟩

/-! ### Two cores that differ in log, record and run state -/

/-- Two cores alike in everything a step reads: the same program-visible state and input queue, and both able to step or in
the same run state, with the same record if that is `Faulted` (R119; decision D22). -/
structure Twin (s s' : State) : Prop where
  regs : s'.regs = s.regs
  pc : s'.pc = s.pc
  stack : s'.stack = s.stack
  mem : s'.mem = s.mem
  inq : s'.inq = s.inq
  run : (s.run.steps = true ∧ s'.run.steps = true) ∨ s'.run = s.run
  frec : s.run = .faulted → s'.frec = s.frec

/-- Two cores have had the same bytes appended to their logs. -/
def SameOutput (s t s' t' : State) : Prop := ∃ bs, t.outlog = s.outlog ++ bs ∧ t'.outlog = s'.outlog ++ bs

theorem SameOutput.of_eq {s t s' t' : State} (h : t.outlog = s.outlog) (h' : t'.outlog = s'.outlog) :
    SameOutput s t s' t' :=
  ⟨[], by simp [h], by simp [h']⟩

theorem SameOutput.trans {s t u s' t' u' : State} (h : SameOutput s t s' t') (k : SameOutput t u t' u') :
    SameOutput s u s' u' := by
  obtain ⟨bs, hb, hb'⟩ := h
  obtain ⟨cs, hc, hc'⟩ := k
  exact ⟨bs ++ cs, by rw [hc, hb, List.append_assoc], by rw [hc', hb', List.append_assoc]⟩

theorem Twin.eq_alter {s s' : State} (h : Twin s s') : s' = s.alter s'.run s'.frec s'.outlog [] := by
  obtain ⟨hregs, hpc, hstack, hmem, hinq, -, -⟩ := h
  cases s'
  simp_all [State.alter]

theorem Twin.of_alter (t : State) (f : Option FaultRecord) (o : List Byte) (hf : t.run = .faulted → f = t.frec) :
    Twin t (t.alter t.run f o []) :=
  ⟨rfl, rfl, rfl, rfl, List.append_nil _, .inr rfl, hf⟩

/-- Steps of twins end as twins, in one run state, with the same bytes written. -/
theorem Twin.step {s s' t : State} (h : Twin s s') (hstep : step s = .next t) :
    ∃ t', Machine.step s' = .next t' ∧ Twin t t' ∧ SameOutput s t s' t' ∧ t'.run = t.run := by
  cases hr : s.run.steps with
  | false =>
    have hrun : s'.run = s.run := h.run.resolve_left (by simp [hr])
    cases (step_of_terminal hr).symm.trans hstep
    exact ⟨s', step_of_terminal (hrun ▸ hr), h, .of_eq rfl rfl, hrun⟩
  | true =>
    have hr' : s'.run.steps = true := h.run.elim And.right fun e => e ▸ hr
    obtain ⟨bs, hlog, hstep'⟩ := step_alike s s'.run s'.frec s'.outlog [] hr hr' hstep fun _ => rfl
    rw [← h.eq_alter] at hstep'
    exact ⟨_, hstep', .of_alter t _ _ fun hf => if_pos hf, ⟨bs, hlog, rfl⟩, rfl⟩

/-- The state a supply of bytes leaves (R224). -/
def State.supplyBytes (s : State) (bs : List Nat) : State :=
  { s with
    inq := s.inq ++ bs.map (BitVec.ofNat 8)
    run := if s.run == .suspended && !bs.isEmpty then .running else s.run }

theorem supply_eq {bs : List Nat} (h : (bs.all fun b => decide (b < 256)) = true) (s : State) :
    supply bs s = .next (s.supplyBytes bs) :=
  supply_next h s

/-- A supply does not change whether a step is possible (R224). -/
theorem supplyBytes_steps (s : State) (bs : List Nat) : (s.supplyBytes bs).run.steps = s.run.steps := by
  unfold State.supplyBytes
  split
  · next h =>
    simp only [Bool.and_eq_true, beq_iff_eq] at h
    rw [h.1]
    rfl
  · rfl

theorem supplyBytes_run_of_terminal {s : State} (h : s.run.steps = false) (bs : List Nat) :
    (s.supplyBytes bs).run = s.run := by
  have hne : s.run ≠ .suspended := by rintro e; simp [e, RunState.steps] at h
  simp [State.supplyBytes, hne]

theorem Twin.supplyBytes {s s' : State} (h : Twin s s') (bs : List Nat) :
    Twin (s.supplyBytes bs) (s'.supplyBytes bs) := by
  obtain ⟨hregs, hpc, hstack, hmem, hinq, hrun, hfrec⟩ := h
  refine ⟨hregs, hpc, hstack, hmem, by simp [State.supplyBytes, hinq], ?_, fun hf => hfrec ?_⟩
  · rw [supplyBytes_steps, supplyBytes_steps]
    exact hrun.imp_right fun e => by simp [State.supplyBytes, e]
  · have hs : s.run.steps = false := by rw [← supplyBytes_steps s bs, hf]; rfl
    rwa [supplyBytes_run_of_terminal hs] at hf

/-- A move of a run keeps twins twins; a step, or a start in one run state, leaves them in one run state. -/
theorem Twin.act {s s' t : State} {x : HostAction} (h : Twin s s') (hx : x.inRun = true) (ha : x.act s = .next t) :
    ∃ t', x.act s' = .next t' ∧ Twin t t' ∧ SameOutput s t s' t' ∧ (.step = x ∨ s'.run = s.run → t'.run = t.run) := by
  obtain rfl | ⟨bs, rfl, hb⟩ := inRun_cases hx
  · obtain ⟨t', hstep, ht, ho, hrun⟩ := h.step ha
    exact ⟨t', hstep, ht, ho, fun _ => hrun⟩
  · cases (supply_eq hb s).symm.trans ha
    refine ⟨_, supply_eq hb s', h.supplyBytes bs, .of_eq rfl rfl, ?_⟩
    rintro (e | e)
    · cases e
    · simp [State.supplyBytes, e]

/-- Runs of twins under one host behaviour (R119). -/
theorem Twin.perform {xs : List HostAction} : ∀ {s s' t : State}, Twin s s' → Run s xs t →
    ∃ t', Run s' xs t' ∧ Twin t t' ∧ SameOutput s t s' t' ∧ (.step ∈ xs ∨ s'.run = s.run → t'.run = t.run) := by
  induction xs with
  | nil =>
    rintro s s' t h ⟨-, hp⟩
    cases hp
    exact ⟨s', ⟨rfl, rfl⟩, h, .of_eq rfl rfl, fun e => e.resolve_left (by simp)⟩
  | cons x xs ih =>
    intro s s' t h hrun
    obtain ⟨hx, u, hu, hrest⟩ := run_cons hrun
    obtain ⟨u', hu', hut, ho, hsame⟩ := h.act hx hu
    obtain ⟨t', ⟨hall, hp⟩, htt, ho', hsame'⟩ := ih hut hrest
    refine ⟨t', ⟨by simp [hx, hall], (perform_cons hu' xs).trans hp⟩, htt, ho.trans ho', fun e => ?_⟩
    rw [List.mem_cons, or_assoc, or_left_comm] at e
    exact hsame' (e.imp_right hsame)

/-! ### When bytes come does not matter: a run with all its input supplied at the start -/

/-- `s` with all of these bytes waiting, and no longer waiting for a supply. -/
def State.presupplied (s : State) (bs : List Byte) : State :=
  { s with run := if s.run.steps then .running else s.run, inq := s.inq ++ bs }

theorem presupplied_nil_of_over {s : State} (h : runOver s = true) : s.presupplied [] = s := by
  have hs : s.run.steps = false := by simpa [runOver] using h
  simp [State.presupplied, hs]

/-- Bytes supplied now or at the start are the same bytes. -/
theorem presupplied_supplyBytes (s : State) (bs : List Nat) (more : List Byte) :
    (s.supplyBytes bs).presupplied more = s.presupplied (bs.map (BitVec.ofNat 8) ++ more) := by
  have hrun : (if s.run.steps then RunState.running else (s.supplyBytes bs).run) =
      if s.run.steps then .running else s.run := by
    cases h : s.run.steps
    · simp [supplyBytes_run_of_terminal h]
    · rfl
  simp only [State.presupplied, supplyBytes_steps, hrun]
  simp [State.supplyBytes]

theorem presupplied_of_suspend {s : State} (hr : s.run.steps = true) (more : List Byte) :
    s.suspend.presupplied more = s.presupplied more := by
  have hs : RunState.suspended.steps = true := rfl
  simp [State.presupplied, hs, hr]

/-- What a step leaves, with input added behind, is a presupplied core, unless it waits. -/
theorem StepEnd.alter_eq_presupplied {s t : State} (e : StepEnd s t) (hs : t.run ≠ .suspended) (more : List Byte) :
    t.alter t.run (if t.run = .faulted then t.frec else s.frec) t.outlog more = t.presupplied more := by
  have hfrec : (if t.run = .faulted then t.frec else s.frec) = t.frec := by
    split
    · rfl
    · next h => exact (e.frec_eq h).symm
  have hrun : (if t.run.steps then RunState.running else t.run) = t.run := by
    split
    · next h => exact (e.running_of_steps h hs).symm
    · rfl
  rw [hfrec, State.presupplied, hrun]
  rfl

/-- A step either only begins a wait, which a core that has its input does not, or is that core's step too. -/
theorem step_presupplied {s t : State} (hr : s.run.steps = true) (h : step s = .next t) (more : List Byte) :
    t.presupplied more = s.presupplied more ∨ step (s.presupplied more) = .next (t.presupplied more) := by
  have e := stepEnd_of_step hr h
  by_cases hs : t.run = .suspended
  · obtain ⟨-, -, rfl⟩ := e.of_suspended hs
    exact .inl (presupplied_of_suspend hr more)
  · obtain ⟨bs, hlog, halike⟩ := step_alike s .running s.frec s.outlog more hr rfl h fun hs' => absurd hs' hs
    have hpre : s.presupplied more = s.alter .running s.frec s.outlog more := by
      simp [State.presupplied, State.alter, hr]
    rw [← hlog, e.alter_eq_presupplied hs] at halike
    exact .inr (hpre ▸ halike)

/-- A run that is over ends where bare steps of the core lead that had all the run's input at the start. -/
theorem runsTo_presupplied {xs : List HostAction} : ∀ {s t : State}, Run s xs t → runOver t = true →
    ∃ n, RunsTo (s.presupplied ((supplied xs).map (BitVec.ofNat 8))) n t := by
  induction xs with
  | nil =>
    rintro s t ⟨-, hp⟩ hover
    cases hp
    exact ⟨0, congrArg Host.Outcome.next (presupplied_nil_of_over hover)⟩
  | cons x xs ih =>
    intro s t hrun hover
    obtain ⟨hx, u, hu, hrest⟩ := run_cons hrun
    obtain ⟨n, hn⟩ := ih hrest hover
    obtain rfl | ⟨bs, rfl, hb⟩ := inRun_cases hx
    · cases hr : s.run.steps with
      | false =>
        cases (step_of_terminal hr).symm.trans hu
        exact ⟨n, hn⟩
      | true =>
        obtain hwait | hstep := step_presupplied hr hu ((supplied xs).map (BitVec.ofNat 8))
        · exact ⟨n, hwait ▸ hn⟩
        · exact ⟨n + 1, (runsTo_succ hstep n t).2 hn⟩
    · cases (supply_eq hb s).symm.trans hu
      rw [presupplied_supplyBytes] at hn
      exact ⟨n, by rwa [supplied, List.map_append]⟩

theorem runsTo_of_over {s t : State} (h : runOver s = true) {n : Nat} (hn : RunsTo s n t) : t = s := by
  have hstep : step s = .next s := step_of_terminal (by simpa [runOver] using h)
  induction n with
  | zero => cases hn; rfl
  | succ n ih => exact ih ((runsTo_succ hstep n t).1 hn)

/-- Bare steps reach at most one state in which the run is over. -/
theorem runsTo_over_unique {n : Nat} : ∀ {m : Nat} {s t u : State}, RunsTo s n t → RunsTo s m u →
    runOver t = true → runOver u = true → t = u := by
  induction n with
  | zero =>
    intro m s t u ht hu hot _
    cases ht
    exact (runsTo_of_over hot hu).symm
  | succ n ih =>
    rintro (_ | m) s t u ht hu hot hou
    · cases hu
      exact runsTo_of_over hou ht
    · obtain ⟨v, hv⟩ := step_total s
      exact ih ((runsTo_succ hv n t).1 ht) ((runsTo_succ hv m u).1 hu) hot hou

end Sys2Proof.Machine

namespace Sys2Proof.Proofs

open Sys2Proof.Machine Sys2Proof.Claims

/-- Settles O26: a step takes the fault of the slots read all at once, which is the one the loop finds; where it finds none
the instruction decoded at `pc` is well-formed. -/
theorem operandPhaseFollowsPseudocode : Obligations.OperandPhaseFollowsPseudocode := by
  intro s op hr hop
  obtain ⟨t, ht⟩ := step_total s
  cases step_next hr ht with
  | outside h =>
    cases hop.symm.trans ((memRead_none _ _).2 h)
  | unknown w h hw =>
    obtain rfl := Option.some.inj (hop.symm.trans h)
    have := number_le op
    rw [slot_toNat] at hw
    omega
  | short op' h hf =>
    obtain rfl : op = op' := slot_injective (Option.some.inj (hop.symm.trans h))
    rw [firstOperandFault_of_short s.mem (memRead_lt hop) hf]
    exact ⟨fun k hk => Option.some.inj hk ▸ ht, nofun⟩
  | run i _ hd hx e =>
    obtain rfl : op = i.opcode := slot_injective (Option.some.inj (hop.symm.trans (fetchDecode_instr hd).1))
    have hstep := step_eq_exec hr hd
    rw [firstOperandFault_of_instr hd]
    cases hw : i.wellFormed with
    | true => exact ⟨nofun, fun _ => ⟨i, rfl, hw, slotsAt_of_fetchDecode hd, hstep⟩⟩
    | false =>
      refine ⟨fun k hk => ?_, nofun⟩
      obtain rfl := Option.some.inj hk
      exact hstep.trans (exec_of_not_wellFormed hw s)

/-- Settles O23: the decoder reads the instruction that stands at `pc`, and the step is its meaning. -/
theorem stepRunsDecodedInstruction : Obligations.StepRunsDecodedInstruction := fun _ _ hr hw hslots =>
  step_eq_exec hr (fetchDecode_of_slotsAt hw hslots)

/-- Settles O24: there is no slot at 32768 to decode. -/
theorem opcodeFetchAtTopFaults : Obligations.OpcodeFetchAtTopFaults := by
  intro s hr hp
  have hstep := step_of_pc_outside hr hp.ge
  have hpc : s.pc = 32768 := BitVec.eq_of_toNat_eq hp
  rw [hstep]
  exact ⟨endsInFault_takeFault .., _, rfl, by rw [takeFault_frec, hpc]⟩

/-- Settles O25: above 21 no opcode is found; up to 21 one is, and its number fixes its roles. -/
theorem opcodeRecognisedOrUnknown : Obligations.OpcodeRecognisedOrUnknown := by
  refine fun w => ⟨fun hw s hr hread => ?unknown, fun hw => ?known⟩
  case unknown =>
    rw [step_of_unknown_slot hr hread hw]
    exact ⟨endsInFault_takeFault .., _, rfl, rfl⟩
  case known =>
    cases hop : Opcode.ofSlot w with
    | none => exact absurd ((ofSlot_eq_none w).1 hop) (by omega)
    | some op =>
      obtain rfl := ofSlot_eq_some hop
      exact ⟨op, rfl, (slot_toNat op).symm, slot_toNat op ▸ roleTable_number op⟩

/-- Settles O28: of the ways a step ends only the fault leaves `Faulted`, and its record is known. -/
theorem faultChangesOnlyRunAndRecord : Obligations.FaultChangesOnlyRunAndRecord := fun _ _ hr hstep hrun =>
  (stepEnd_of_step hr hstep).of_faulted hrun

/-- Settles O30: of the ways a step ends only a starved `in` suspends; and such an `in` at `pc` does. -/
theorem suspensionIsAStarvedIn : Obligations.SuspensionIsAStarvedIn := by
  intro s t hr hstep
  have e := stepEnd_of_step hr hstep
  refine ⟨⟨fun hrun => ?starved, fun ⟨hq, r, hslots⟩ => ?suspends⟩, fun hrun => (e.of_suspended hrun).2.2⟩
  case starved =>
    obtain ⟨hq, ⟨r, hd⟩, -⟩ := e.of_suspended hrun
    exact ⟨hq, r, slotsAt_of_fetchDecode hd⟩
  case suspends =>
    cases (step_of_starved_inp hr hq hslots).symm.trans hstep
    rfl

/-- Settles O32: of the ways a step ends only a `halt` leaves `Halted`; and its opcode slot, 0, at `pc` does. -/
theorem haltingIsAHalt : Obligations.HaltingIsAHalt := by
  intro s t hr hstep
  have e := stepEnd_of_step hr hstep
  refine ⟨⟨fun hrun => ?slot, fun hslot => ?halts⟩, fun hrun => (e.of_halted hrun).2⟩
  case slot =>
    obtain ⟨hd, -⟩ := e.of_halted hrun
    exact memRead_of_fetchDecode hd rfl
  case halts =>
    cases (step_of_halt_slot hr hslot).symm.trans hstep
    rfl

/-- Settles O33: a terminal state is left as it is, and each of the ways a step ends has its report. -/
theorem stepAlwaysReports : Obligations.StepAlwaysReports := by
  refine fun s => ⟨fun hover => step_of_terminal (by simpa [runOver] using hover), fun hover => ?_⟩
  have hr : s.run.steps = true := by simpa [runOver] using hover
  obtain ⟨t, hstep⟩ := step_total s
  exact ⟨t, hstep, (stepEnd_of_step hr hstep).report_eq⟩

/-- Settles O34: two cores alike in what a step reads stay alike under every move of a run; and a run that is over ends where
the core leads that had all its input at the start, which bare steps determine. -/
theorem runsDependOnlyOnProgramStateAndInput : Obligations.RunsDependOnlyOnProgramStateAndInput := by
  refine ⟨?alike, ?supplies⟩
  case alike =>
    intro xs s s' t hs hs' hregs hpc hstack hmem hinq hrun
    have htwin : Twin s s' :=
      ⟨hregs, hpc, hstack, hmem, hinq, .inl ⟨hs, hs'⟩, fun hf => absurd hf (ne_faulted_of_steps hs)⟩
    obtain ⟨t', hrun', ht, ⟨bs, hlog, hlog'⟩, hsame⟩ := htwin.perform hrun
    exact ⟨t', bs, hrun', hlog, hlog', ht.regs, ht.pc, ht.stack, ht.mem, ht.inq, fun hx => hsame (.inl hx), ht.frec⟩
  case supplies =>
    intro s t u xs ys ht hu hsupplied hot hou
    obtain ⟨n, hn⟩ := runsTo_presupplied ht hot
    obtain ⟨m, hm⟩ := runsTo_presupplied hu hou
    exact runsTo_over_unique hn (hsupplied ▸ hm) hot hou

/-- Settles O60: a step that completes or halts ran a well-formed instruction, each of whose operands the trace shows. -/
theorem traceRecordsCompletedInstructions : Obligations.TraceRecordsCompletedInstructions := by
  intro s t hstep
  refine ⟨?silent, fun hr hdone => ?emits⟩
  case silent =>
    rintro (hr | hrun | hrun)
    · exact traceRecord_of_terminal hr
    · exact traceRecord_of_not_done hstep (by simp [hrun]) (by simp [hrun])
    · exact traceRecord_of_not_done hstep (by simp [hrun]) (by simp [hrun])
  case emits =>
    obtain ⟨i, hd, hw⟩ := (stepEnd_of_step hr hstep).of_done hdone
    refine ⟨i, _, hw, slotsAt_of_fetchDecode hd, traceRecord_of_done hr hd hstep hdone, rfl, rfl,
      traceOperands_length hw s, fun n o y ho hy => ?_⟩
    obtain ⟨role, hrole, hshow⟩ := traceOperand_of_getElem? hw ho hy
    cases y with
    | dest r =>
      obtain ⟨rfl, rfl⟩ := traceOperand_dest hshow
      exact ⟨hrole, rfl⟩
    | value v =>
      obtain ⟨rfl, hv⟩ := traceOperand_value hshow
      exact ⟨hrole, hv⟩

end Sys2Proof.Proofs

/-! PROOFS. The family of spec/41_data_move_stack.md: `set`, `push` and `pop` (R131 to R133), with the decode phase that every
instruction's rule begins with (R112, R113, R130). -/

/-! ### The decode phase, for every opcode -/

namespace Sys2Proof.Machine

open Sys2Proof.Claims

/-- The decoder answers what an opcode builds from the classes of the slots after its own (R82, R89). -/
theorem decode_of_build {op : Opcode} {ws : List Raw} {i : Instr} (h : op.build (ws.map classify) = some i) :
    decode (op.slot :: ws) = .instr i := by
  simp [decode, h]

/-- Slots in memory are all a fetch is offered, where it asks for no more or memory ends after them (R66). -/
theorem slotsFrom_eq_of_slotsAt {m : Memory} {a n : Nat} {ws : List Raw} (h : SlotsAt m a ws) (hn : ws.length ≤ n)
    (hend : ws.length = n ∨ Config.memSlots ≤ a + ws.length) : slotsFrom m a n = ws := by
  refine List.ext_getElem? fun j => ?_
  rw [slotsFrom_getElem?]
  by_cases hj : j < ws.length
  · rw [if_pos (by omega), List.getElem?_eq_getElem hj, h j _ (List.getElem?_eq_getElem hj)]
  · rw [List.getElem?_eq_none (by omega), ite_eq_right_iff]
    exact fun _ => (memRead_none _ _).2 (by omega)

/-- The operands are all accepted in their roles exactly when their slots are legal there (R83, R84). -/
theorem all_accepts_iff (roles : List Role) (ws : List Raw) :
    (roles.zip (ws.map classify)).all (fun (r, o) => r.accepts o) = true ↔
      ∀ x ∈ roles.zip ws, LegalSlot x.1 x.2 := by
  simp [List.zip_map_right, accepts_classify]

theorem operandFault_of_illegal {roles : List Role} {ws : List Raw} (h : ∃ x ∈ roles.zip ws, ¬ LegalSlot x.1 x.2) :
    operandFault roles (ws.map classify) = some .invalidOperandEncoding := by
  obtain ⟨x, hx, hillegal⟩ := h
  exact if_neg fun hall => hillegal ((all_accepts_iff roles ws).1 hall x hx)

theorem operandFault_of_missing {roles : List Role} {ws : List Raw} (h : ∀ x ∈ roles.zip ws, LegalSlot x.1 x.2)
    (hlen : ws.length < roles.length) : operandFault roles (ws.map classify) = some .outOfRange := by
  rw [operandFault, if_pos ((all_accepts_iff roles ws).2 h), if_pos (by simpa using hlen)]

/-- A step faults as the operand slots in memory do, where they are the opcode's own or memory ends after them (R113). -/
theorem endsInFault_of_operandFault {s : State} {op : Opcode} {ws : List Raw} {k : FaultKind}
    (hr : s.run.steps = true) (hop : memRead s.mem s.pc.toNat = some op.slot)
    (hslots : SlotsAt s.mem (s.pc.toNat + 1) ws) (hn : ws.length ≤ op.roles.length)
    (hend : ws.length = op.roles.length ∨ Config.memSlots ≤ s.pc.toNat + 1 + ws.length)
    (hk : operandFault op.roles (ws.map classify) = some k) : EndsInFault k s (step s) := by
  have hloop : firstOperandFault s.mem op.roles (s.pc.toNat + 1) = some k := by
    rw [firstOperandFault_eq _ _ _ _ le_rfl, slotsFrom_eq_of_slotsAt hslots hn hend, hk]
  rw [(Proofs.operandPhaseFollowsPseudocode s op hr hop).1 k hloop]
  exact endsInFault_takeFault s k (some op.slot)

/-- Every opcode has the decode-phase faults its number and its roles give it (R130). -/
theorem decodePhase (op : Opcode) : DecodePhase op.number op.roles := by
  refine ⟨fun s ws hr hop hlen hslots hillegal => ?illegal, fun s ws hr hop hlen hend hslots hlegal => ?missing⟩
  case illegal =>
    exact endsInFault_of_operandFault hr hop hslots hlen.le (.inl hlen) (operandFault_of_illegal hillegal)
  case missing =>
    exact endsInFault_of_operandFault hr hop hslots hlen.le (.inr hend.ge) (operandFault_of_missing hlegal hlen)

/-! ### What `set`, `push` and `pop` do -/

/-- `set` with its value resolved writes it and advances (R131). -/
theorem exec_set_of_val {s : State} {r : RegIdx} {a : Operand} {v : Word} (ha : s.val a = .ok v) :
    exec (.set (.reg r) a) s = .next ((s.setReg r v).advance 3) :=
  unary_reg .set _ r a s v ha

/-- `push` with its value resolved puts it on the stack and advances (R132). -/
theorem exec_push_of_val {s : State} {a : Operand} {v : Word} (ha : s.val a = .ok v) :
    exec (.push a) s = .next ((s.push v).advance 2) := by
  simp [exec, execPush, ha]

/-- `pop` moves the top of the stack to its destination and advances (R133). -/
theorem exec_pop_of_cons {s : State} {r : RegIdx} {v : Word} {rest : List Word} (h : s.stack = v :: rest) :
    exec (.pop (.reg r)) s = .next ((State.setReg { s with stack := rest } r v).advance 2) := by
  simp [exec, execPop, pop_cons s v rest h]

/-- `pop` on an empty stack raises `StackUnderflow` (R133, R254). -/
theorem exec_pop_of_nil {s : State} {r : RegIdx} (h : s.stack = []) :
    exec (.pop (.reg r)) s = .next (s.takeFault .stackUnderflow (some Opcode.pop.slot)) := by
  simp [exec, execPop, pop_nil s h]

end Sys2Proof.Machine

/-! ### The obligations -/

namespace Sys2Proof.Proofs

open Sys2Proof.Machine Sys2Proof.Claims

/-- Settles O1: `set` has the decode phase of every opcode; its value resolved, it writes the register and advances. -/
theorem setCopiesValueToRegister : Obligations.SetCopiesValueToRegister :=
  ⟨fun _ _ _ => decode_of_build (op := .set) rfl, decodePhase .set,
    fun _ _ _ _ ha => exec_set_of_val (val_of_resolves ha)⟩

/-- Settles O2: `push` has the decode phase of every opcode; its value resolved, it pushes it and advances. -/
theorem pushPutsValueOnStack : Obligations.PushPutsValueOnStack :=
  ⟨fun _ _ => decode_of_build (op := .push) rfl, decodePhase .push,
    fun _ _ _ ha => exec_push_of_val (val_of_resolves ha)⟩

/-- Settles O3: `pop` has the decode phase of every opcode; what it then does depends on whether the stack is empty. -/
theorem popTakesTopOrUnderflows : Obligations.PopTakesTopOrUnderflows := by
  refine ⟨fun _ _ => decode_of_build (op := .pop) rfl, decodePhase .pop, fun s r v rest h => ?top, fun s r h => ?empty⟩
  case top => exact exec_pop_of_cons h
  case empty =>
    rw [exec_pop_of_nil h]
    exact endsInFault_takeFault ..

end Sys2Proof.Proofs

/-! PROOFS. The family of spec/42_compare.md: `eq` and `gt` (R140 to R142). -/

/-! ### What `eq` and `gt` do -/

namespace Sys2Proof.Machine

/-- `binary` with its values resolved and a function that cannot fail writes the result and advances (R113, R114). -/
theorem binary_ok_of_val {op : Opcode} {g : Word → Word → Word} {s : State} {r : RegIdx} {a b : Operand} {va vb : Word}
    (ha : s.val a = .ok va) (hb : s.val b = .ok vb) :
    binary op (fun v w => .ok (g v w)) (.reg r) a b s = .next ((s.setReg r (g va vb)).advance 4) :=
  binary_reg op _ r a b s va vb ha hb

theorem truthWord_decide (p : Prop) [Decidable p] : truthWord (decide p) = if p then 1 else 0 := by
  simp [truthWord]

/-- Two Words are equal as the model compares them exactly when their numbers are (R140). -/
theorem truthWord_beq (va vb : Word) : truthWord (va == vb) = if va.toNat = vb.toNat then 1 else 0 := by
  simp [truthWord, BitVec.toNat_inj]

/-- `eq` with its values resolved writes whether their numbers are equal and advances (R140). -/
theorem exec_eq_of_val {s : State} {r : RegIdx} {a b : Operand} {va vb : Word} (ha : s.val a = .ok va)
    (hb : s.val b = .ok vb) :
    exec (.eq (.reg r) a b) s = .next ((s.setReg r (if va.toNat = vb.toNat then 1 else 0)).advance 4) := by
  rw [← truthWord_beq]
  exact binary_ok_of_val ha hb

/-- `gt` with its values resolved writes whether the first number is the greater and advances (R141). -/
theorem exec_gt_of_val {s : State} {r : RegIdx} {a b : Operand} {va vb : Word} (ha : s.val a = .ok va)
    (hb : s.val b = .ok vb) :
    exec (.gt (.reg r) a b) s = .next ((s.setReg r (if va.toNat > vb.toNat then 1 else 0)).advance 4) := by
  rw [← truthWord_decide]
  exact binary_ok_of_val ha hb

/-- What `eq`, `gt` and `gt` with its operands swapped write is 1 for exactly one of the three (R142). -/
theorem comparison_results_mem (m n : Nat) :
    [if m = n then (1 : Word) else 0, if m > n then 1 else 0, if n > m then 1 else 0] ∈
      [[1, 0, 0], [0, 1, 0], [(0 : Word), 0, 1]] := by
  obtain hlt | heq | hgt := lt_trichotomy m n
  · simp [hlt, hlt.ne, hlt.not_gt]
  · simp [heq]
  · simp [hgt, hgt.ne', hgt.not_gt]

end Sys2Proof.Machine

/-! ### The obligations -/

namespace Sys2Proof.Proofs

open Sys2Proof.Machine Sys2Proof.Claims

/-- Settles O4: `eq` has the decode phase of every opcode; its values resolved, it writes 1 or 0 and advances. -/
theorem eqWritesOneExactlyWhenEqual : Obligations.EqWritesOneExactlyWhenEqual :=
  ⟨fun _ _ _ _ => decode_of_build (op := .eq) rfl, decodePhase .eq,
    fun _ _ _ _ _ _ ha hb => exec_eq_of_val (val_of_resolves ha) (val_of_resolves hb)⟩

/-- Settles O5: `gt` has the decode phase of every opcode; its values resolved, it writes 1 or 0 and advances. -/
theorem gtWritesOneExactlyWhenGreater : Obligations.GtWritesOneExactlyWhenGreater :=
  ⟨fun _ _ _ _ => decode_of_build (op := .gt) rfl, decodePhase .gt,
    fun _ _ _ _ _ _ ha hb => exec_gt_of_val (val_of_resolves ha) (val_of_resolves hb)⟩

/-- Settles O50: the three instructions complete, and by the trichotomy of the two numbers one of them writes 1. -/
theorem comparisonsAreATrichotomy : Obligations.ComparisonsAreATrichotomy := by
  intro s r a b va vb ha hb
  have hva := val_of_resolves ha
  have hvb := val_of_resolves hb
  refine ⟨_, _, _, exec_eq_of_val hva hvb, exec_gt_of_val hva hvb, exec_gt_of_val hvb hva, ?_⟩
  simpa only [advance_regs, setReg_regs, Fin.getElem_fin, Vector.getElem_set_self] using
    comparison_results_mem va.toNat vb.toNat

end Sys2Proof.Proofs

/-! PROOFS. The family of spec/43_jumps.md: `jmp`, `jt` and `jf` (R151 to R153). -/

/-! ### What `jmp`, `jt` and `jf` do -/

namespace Sys2Proof.Machine

/-- A Word is true to a conditional jump exactly when its number is not zero (R152, R153). -/
theorem condHolds_iff (v : Word) : condHolds v = true ↔ v.toNat ≠ 0 := by
  simp [condHolds, BitVec.toNat_eq]

/-- Taken or not, a conditional jump replaces only the pc and the run state (R152, R153). -/
theorem ite_jumpTo_advance (p : Prop) [Decidable p] (s : State) (t : Word) (n : Nat) :
    (if p then s.jumpTo t else s.advance n) =
      { s with pc := if p then wordToPc t else s.pc + BitVec.ofNat 16 n, run := .running } := by
  split
  case isTrue => rfl
  case isFalse => rfl

/-- `jmp` with its target resolved goes there (R151). -/
theorem exec_jmp_of_val {s : State} {a : Operand} {t : Word} (ha : s.val a = .ok t) :
    exec (.jmp a) s = .next (s.jumpTo t) := by
  simp [exec, execJmp, ha]

/-- `jt` with its values resolved jumps where the condition's number is not zero, else advances (R152). -/
theorem exec_jt_of_val {s : State} {a b : Operand} {c t : Word} (ha : s.val a = .ok c) (hb : s.val b = .ok t) :
    exec (.jt a b) s = .next (if c.toNat ≠ 0 then s.jumpTo t else s.advance 3) := by
  simp only [exec, execJt, ha, hb, ok_bind, pure_eq_ok, conclude_ok, condHolds_iff]

/-- `jf` with its values resolved jumps where the condition's number is zero, else advances (R153). -/
theorem exec_jf_of_val {s : State} {a b : Operand} {c t : Word} (ha : s.val a = .ok c) (hb : s.val b = .ok t) :
    exec (.jf a b) s = .next (if c.toNat = 0 then s.jumpTo t else s.advance 3) := by
  simp only [exec, execJf, ha, hb, ok_bind, pure_eq_ok, conclude_ok, condHolds_iff, ite_not]

end Sys2Proof.Machine

/-! ### The obligations -/

namespace Sys2Proof.Proofs

open Sys2Proof.Machine Sys2Proof.Claims

/-- Settles O6: `jmp` has the decode phase of every opcode; its target resolved, it goes there. -/
theorem jmpGoesToTarget : Obligations.JmpGoesToTarget :=
  ⟨fun _ _ => decode_of_build (op := .jmp) rfl, decodePhase .jmp,
    fun _ _ _ ha => exec_jmp_of_val (val_of_resolves ha)⟩

/-- Settles O7: `jt` has the decode phase of every opcode; its values resolved, its two outcomes differ in the pc only. -/
theorem jtJumpsExactlyWhenNonzero : Obligations.JtJumpsExactlyWhenNonzero := by
  refine ⟨fun _ _ _ => decode_of_build (op := .jt) rfl, decodePhase .jt, fun s a b c t ha hb => ?_⟩
  rw [exec_jt_of_val (val_of_resolves ha) (val_of_resolves hb), ite_jumpTo_advance]
  rfl

/-- Settles O8: `jf` has the decode phase of every opcode; its values resolved, its two outcomes differ in the pc only. -/
theorem jfJumpsExactlyWhenZero : Obligations.JfJumpsExactlyWhenZero := by
  refine ⟨fun _ _ _ => decode_of_build (op := .jf) rfl, decodePhase .jf, fun s a b c t ha hb => ?_⟩
  rw [exec_jf_of_val (val_of_resolves ha) (val_of_resolves hb), ite_jumpTo_advance]
  rfl

end Sys2Proof.Proofs

/-! PROOFS. The family of spec/44_arithmetic_logic.md: `add`, `mult`, `mod`, `and`, `or` and `not` (R161 to R166), and
subtraction (R168). -/

/-! ### The results, by their numbers and their bits -/

namespace Sys2Proof.Machine

/-- The low 15 bits of a number are the Word that has its remainder by 32768 (R160). -/
theorem reduce_eq_of_toNat {n : Nat} {v : Word} (h : v.toNat = n % 32768) : reduce n = v := by
  rw [reduce, Config.modulus, ← h, BitVec.ofNat_toNat, BitVec.setWidth_eq]

theorem remainder_of_ne_zero {va vb v : Word} (hb : vb.toNat ≠ 0) (h : v.toNat = va.toNat % vb.toNat) :
    remainder va vb = .ok v := by
  have hne : vb ≠ 0 := fun e => hb (congrArg BitVec.toNat e)
  rw [remainder, if_neg hne, ← h, BitVec.ofNat_toNat, BitVec.setWidth_eq]

theorem remainder_of_eq_zero {vb : Word} (hb : vb.toNat = 0) (va : Word) : remainder va vb = .error .divisionByZero :=
  if_pos (BitVec.eq_of_toNat_eq hb)

/-- A Word is known by its 15 bits (R164, R165). -/
theorem word_eq_of_testBit {u v : Word} (h : ∀ n < 15, v.toNat.testBit n = u.toNat.testBit n) : u = v :=
  BitVec.eq_of_getLsbD_eq fun n hn => (h n hn).symm

/-- Inverting a Word and adding 1 negates it (R168). -/
theorem neg_toNat_eq_not_add_one (v : Word) : (-v).toNat = ((~~~v).toNat + (1 : Word).toNat) % 32768 := by
  rw [BitVec.neg_eq_not_add, BitVec.toNat_add]
  rfl

/-! ### What the instructions do -/

section
variable {s : State} {r : RegIdx} {a b : Operand} {va vb v : Word}

/-- `unary` with its value resolved and a function that cannot fail writes the result and advances (R113, R114). -/
theorem unary_ok_of_val {op : Opcode} {g : Word → Word} (ha : s.val a = .ok va) :
    unary op (fun u => .ok (g u)) (.reg r) a s = .next ((s.setReg r (g va)).advance 3) :=
  unary_reg op _ r a s va ha

/-- `add` with its values resolved writes their sum modulo 32768 and advances (R161). -/
theorem exec_add_of_val (ha : s.val a = .ok va) (hb : s.val b = .ok vb)
    (hv : v.toNat = (va.toNat + vb.toNat) % 32768) :
    exec (.add (.reg r) a b) s = .next ((s.setReg r v).advance 4) := by
  rw [← reduce_eq_of_toNat hv]
  exact binary_ok_of_val ha hb

/-- `mult` with its values resolved writes their product modulo 32768 and advances (R162). -/
theorem exec_mult_of_val (ha : s.val a = .ok va) (hb : s.val b = .ok vb)
    (hv : v.toNat = (va.toNat * vb.toNat) % 32768) :
    exec (.mult (.reg r) a b) s = .next ((s.setReg r v).advance 4) := by
  rw [← reduce_eq_of_toNat hv]
  exact binary_ok_of_val ha hb

/-- `mod` with its values resolved ends as their remainder says: written, or `DivisionByZero` (R163). -/
theorem exec_mod_of_val (ha : s.val a = .ok va) (hb : s.val b = .ok vb) :
    exec (.mod (.reg r) a b) s =
      conclude .mod s ((remainder va vb).map fun v => (s.setReg r v).advance 4) :=
  binary_reg .mod remainder r a b s va vb ha hb

/-- `and` with its values resolved writes their conjunction and advances (R164). -/
theorem exec_and_of_val (ha : s.val a = .ok va) (hb : s.val b = .ok vb) :
    exec (.and (.reg r) a b) s = .next ((s.setReg r (va &&& vb)).advance 4) :=
  binary_ok_of_val ha hb

/-- `or` with its values resolved writes their disjunction and advances (R165). -/
theorem exec_or_of_val (ha : s.val a = .ok va) (hb : s.val b = .ok vb) :
    exec (.or (.reg r) a b) s = .next ((s.setReg r (va ||| vb)).advance 4) :=
  binary_ok_of_val ha hb

/-- `not` with its value resolved writes its complement and advances (R166). -/
theorem exec_not_of_val (ha : s.val a = .ok va) :
    exec (.not (.reg r) a) s = .next ((s.setReg r (~~~va)).advance 3) :=
  unary_ok_of_val ha

/-- Where an instruction wrote a register, that register resolves to what was written (R83, R114). -/
theorem val_written (s : State) (t : RegIdx) (u : Word) (n : Nat) : ((s.setReg t u).advance n).val (.reg t) = .ok u :=
  congrArg Except.ok (reg_setReg_same s t u)

/-- Where an instruction wrote a register, an operand that does not name it resolves as before (R83, R114). -/
theorem val_unwritten {t : RegIdx} (h : a ≠ .reg t) (s : State) (u : Word) (n : Nat) :
    ((s.setReg t u).advance n).val a = s.val a := by
  cases a with
  | lit w => rfl
  | invalid w => rfl
  | reg q => exact congrArg Except.ok (reg_setReg_other s t q u fun e => h (congrArg Operand.reg e.symm))

end

end Sys2Proof.Machine

/-! ### The obligations -/

namespace Sys2Proof.Proofs

open Sys2Proof.Machine Sys2Proof.Claims

/-- Settles O9: `add` has the decode phase of every opcode; its values resolved, it writes the sum and advances. -/
theorem addWritesSumModulo32768 : Obligations.AddWritesSumModulo32768 :=
  ⟨fun _ _ _ _ => decode_of_build (op := .add) rfl, decodePhase .add,
    fun _ _ _ _ _ _ _ ha hb hv => exec_add_of_val (val_of_resolves ha) (val_of_resolves hb) hv⟩

/-- Settles O10: `mult` has the decode phase of every opcode; its values resolved, it writes the product and advances. -/
theorem multWritesProductModulo32768 : Obligations.MultWritesProductModulo32768 :=
  ⟨fun _ _ _ _ => decode_of_build (op := .mult) rfl, decodePhase .mult,
    fun _ _ _ _ _ _ _ ha hb hv => exec_mult_of_val (val_of_resolves ha) (val_of_resolves hb) hv⟩

/-- Settles O11: `mod` has the decode phase of every opcode; what it then does depends on whether the divisor is zero. -/
theorem modWritesRemainderOrDividesByZero : Obligations.ModWritesRemainderOrDividesByZero := by
  refine ⟨fun _ _ _ _ => decode_of_build (op := .mod) rfl, decodePhase .mod, fun s r a b va vb ha hb => ?_⟩
  rw [exec_mod_of_val (val_of_resolves ha) (val_of_resolves hb)]
  refine ⟨fun v hne hv => ?divides, fun hzero => ?zero⟩
  case divides =>
    rw [remainder_of_ne_zero hne hv]
    rfl
  case zero =>
    rw [remainder_of_eq_zero hzero]
    exact endsInFault_takeFault ..

/-- Settles O12: `and` has the decode phase of every opcode; the Word it writes is known by its 15 bits. -/
theorem andWritesBitwiseConjunction : Obligations.AndWritesBitwiseConjunction := by
  refine ⟨fun _ _ _ _ => decode_of_build (op := .and) rfl, decodePhase .and, fun s r a b va vb v ha hb hbits => ?_⟩
  have hv : va &&& vb = v := word_eq_of_testBit (by simpa only [BitVec.toNat_and, Nat.testBit_and] using hbits)
  rw [← hv]
  exact exec_and_of_val (val_of_resolves ha) (val_of_resolves hb)

/-- Settles O13: `or` has the decode phase of every opcode; the Word it writes is known by its 15 bits. -/
theorem orWritesBitwiseDisjunction : Obligations.OrWritesBitwiseDisjunction := by
  refine ⟨fun _ _ _ _ => decode_of_build (op := .or) rfl, decodePhase .or, fun s r a b va vb v ha hb hbits => ?_⟩
  have hv : va ||| vb = v := word_eq_of_testBit (by simpa only [BitVec.toNat_or, Nat.testBit_or] using hbits)
  rw [← hv]
  exact exec_or_of_val (val_of_resolves ha) (val_of_resolves hb)

/-- Settles O14: `not` has the decode phase of every opcode; its value resolved, it writes the complement and advances. -/
theorem notWritesFifteenBitComplement : Obligations.NotWritesFifteenBitComplement := by
  refine ⟨fun _ _ _ => decode_of_build (op := .not) rfl, decodePhase .not, fun s r a va v ha hv => ?_⟩
  have hnot : ~~~va = v := BitVec.eq_of_toNat_eq (BitVec.toNat_not.trans hv.symm)
  rw [← hnot]
  exact exec_not_of_val (val_of_resolves ha)

/-- Settles O51: `not` and the first `add` leave `-b` in the scratch register, which leaves `a` as it was, and the second
`add` sums the two. -/
theorem notAddAddSubtracts : Obligations.NotAddAddSubtracts := by
  intro s d t a b va vb v ha hb hne hv
  have hva : ((((s.setReg t (~~~vb)).advance 3).setReg t (-vb)).advance 4).val a = .ok va := by
    rw [val_unwritten hne, val_unwritten hne, val_of_resolves ha]
  have hsub : v.toNat = (va.toNat + (-vb).toNat) % 32768 := by
    rw [hv, BitVec.toNat_neg, Nat.add_mod_mod]
  exact ⟨_, _, _, exec_not_of_val (val_of_resolves hb),
    exec_add_of_val (val_written ..) (val_lit _ 1) (neg_toNat_eq_not_add_one vb),
    exec_add_of_val hva (val_written ..) hsub, reg_setReg_same _ d v⟩

end Sys2Proof.Proofs

/-! PROOFS. The family of spec/45_memory_access.md: `rmem` and `wmem` (R181, R182), and the read of a stored Word (R183). -/

/-! ### What a slot gives `rmem` -/

namespace Sys2Proof.Machine

/-- A slot that has a Word's number is read as that Word (R181). -/
theorem slotAsWord_of_toNat {w : Raw} {v : Word} (h : v.toNat = w.toNat) : slotAsWord w = some v := by
  obtain ⟨-, u, hu, hnum⟩ | ⟨hw, -⟩ := slotAsWord_cases w
  · rw [hu, BitVec.eq_of_toNat_eq (hnum.trans h.symm)]
  · exact absurd v.isLt (by omega)

/-- A slot above 32767 holds no Word (R181; decision D9). -/
theorem slotAsWord_of_ge {w : Raw} (h : 32768 ≤ w.toNat) : slotAsWord w = none := by
  obtain ⟨hw, -⟩ | ⟨-, hnone⟩ := slotAsWord_cases w
  · exact absurd h hw.not_ge
  · exact hnone

/-! ### What `rmem` does -/

section
variable {s : State} {r : RegIdx} {a : Operand} {ea : Word} {w : Raw}

/-- `rmem` with its address resolved ends as the slot there is read: a Word written, or a fault (R180, R181). -/
theorem exec_rmem_of_val (ha : s.val a = .ok ea) :
    exec (.rmem (.reg r) a) s = conclude .rmem s ((loadWord s.mem ea).map fun v => (s.setReg r v).advance 3) :=
  unary_reg .rmem (loadWord s.mem) r a s ea ha

/-- `rmem` of a slot that has a Word's number writes that Word and advances (R181). -/
theorem exec_rmem_of_word {v : Word} (ha : s.val a = .ok ea) (hm : memRead s.mem ea.toNat = some w)
    (hv : v.toNat = w.toNat) : exec (.rmem (.reg r) a) s = .next ((s.setReg r v).advance 3) := by
  have hload : loadWord s.mem ea = .ok v := by simp only [loadWord, hm, slotAsWord_of_toNat hv]
  rw [exec_rmem_of_val ha, hload]
  rfl

/-- `rmem` of a slot above 32767 raises `NonWordData` (R181; decision D9). -/
theorem exec_rmem_of_nonWord (ha : s.val a = .ok ea) (hm : memRead s.mem ea.toNat = some w) (hw : 32768 ≤ w.toNat) :
    exec (.rmem (.reg r) a) s = .next (s.takeFault .nonWordData (some Opcode.rmem.slot)) := by
  have hload : loadWord s.mem ea = .error .nonWordData := by simp only [loadWord, hm, slotAsWord_of_ge hw]
  rw [exec_rmem_of_val ha, hload]
  rfl

end

end Sys2Proof.Machine

/-! ### The obligations -/

namespace Sys2Proof.Proofs

open Sys2Proof.Machine Sys2Proof.Claims

/-- Settles O15: `rmem` has the decode phase of every opcode; what it then does depends on the number the slot holds. -/
theorem rmemReadsWordOrFaults : Obligations.RmemReadsWordOrFaults := by
  refine ⟨fun _ _ _ => decode_of_build (op := .rmem) rfl, decodePhase .rmem, fun s r a ea w ha hm => ?_⟩
  have hval := val_of_resolves ha
  refine ⟨fun v _ hv => ?word, fun hw => ?nonWord⟩
  case word => exact exec_rmem_of_word hval hm hv
  case nonWord =>
    rw [exec_rmem_of_nonWord hval hm hw]
    exact endsInFault_takeFault ..

/-- Settles O16: `wmem` has the decode phase of every opcode; its operands resolved, it replaces one slot and advances. -/
theorem wmemStoresValueAtAddress : Obligations.WmemStoresValueAtAddress := by
  refine ⟨fun _ _ _ => decode_of_build (op := .wmem) rfl, decodePhase .wmem, fun s a b ea v ha hb => ?_⟩
  exact ⟨_, _, exec_wmem_of_val (val_of_resolves ha) (val_of_resolves hb),
    memRead_put_same s.mem ea.toNat _ (word_lt_memSlots ea), wordToSlot_toNat v,
    fun n hn => memRead_put_other _ _ n _ hn⟩

/-- Settles O48: the slot the `wmem` left has the stored Word's number, and reads so wherever it has not changed. -/
theorem storedWordIsReadBack : Obligations.StoredWordIsReadBack := by
  intro s t u a b c ea v r ha hb hexec hsame hc
  cases (exec_wmem_of_val (val_of_resolves ha) (val_of_resolves hb)).symm.trans hexec
  have hm : memRead u.mem ea.toNat = some (wordToSlot v) :=
    hsame.trans (memRead_put_same s.mem ea.toNat _ (word_lt_memSlots ea))
  exact exec_rmem_of_word (val_of_resolves hc) hm (wordToSlot_toNat v).symm

end Sys2Proof.Proofs

/-! PROOFS. The family of spec/46_call_return.md: `call` and `ret` (R191, R192), and the return to the caller (R193). -/

/-! ### The return address -/

namespace Sys2Proof.Machine

/-- The Word that follows a `call` at `p` is its return address (R191). -/
theorem returnAddress_of_toNat {p : Pc} {ra : Word} (h : ra.toNat = p.toNat + 2) : returnAddress p = .ok ra := by
  obtain ⟨v, hv, hnum⟩ | ⟨htop, -⟩ := returnAddress_cases p
  · rw [hv, BitVec.eq_of_toNat_eq (hnum.trans h.symm)]
  · exact absurd (word_lt_memSlots ra) (by omega)

/-- A `call` with no Word after it has no return address (R191; decision D5). -/
theorem returnAddress_of_ge {p : Pc} (h : Config.memSlots ≤ p.toNat + 2) : returnAddress p = .error .outOfRange := by
  obtain ⟨ra, -, hnum⟩ | ⟨-, herr⟩ := returnAddress_cases p
  · exact absurd (word_lt_memSlots ra) (by omega)
  · exact herr

/-! ### What `call` and `ret` do -/

/-- `call` with its target resolved pushes the return address, where it is a Word, and goes to the target (R191). -/
theorem exec_call_of_val {s : State} {a : Operand} {t ra : Word} (ha : s.val a = .ok t)
    (hra : ra.toNat = s.pc.toNat + 2) : exec (.call a) s = .next ((s.push ra).jumpTo t) := by
  simp [exec, execCall, ha, returnAddress_of_toNat hra]

/-- `call` with no Word after it raises `OutOfRange` (R191; decision D5). -/
theorem exec_call_of_top {s : State} {a : Operand} {t : Word} (ha : s.val a = .ok t)
    (h : Config.memSlots ≤ s.pc.toNat + 2) :
    exec (.call a) s = .next (s.takeFault .outOfRange (some Opcode.call.slot)) := by
  simp [exec, execCall, ha, returnAddress_of_ge h]

/-- `ret` takes the top of the stack and goes there (R192). -/
theorem exec_ret_of_cons {s : State} {t : Word} {rest : List Word} (h : s.stack = t :: rest) :
    exec .ret s = .next (State.jumpTo { s with stack := rest } t) := by
  simp [exec, execRet, pop_cons s t rest h]

/-- `ret` on an empty stack raises `StackUnderflow` (R192; conflict C1). -/
theorem exec_ret_of_nil {s : State} (h : s.stack = []) :
    exec .ret s = .next (s.takeFault .stackUnderflow (some Opcode.ret.slot)) := by
  simp [exec, execRet, pop_nil s h]

/-- A step at an opcode slot of `ret` is its meaning (R114). -/
theorem step_of_ret_slot {s : State} (hr : s.run.steps = true)
    (h : memRead s.mem s.pc.toNat = some Opcode.ret.slot) : step s = exec .ret s :=
  step_eq_exec hr (fetchDecode_of_slotsAt rfl (slotsAt_singleton.2 h))

end Sys2Proof.Machine

/-! ### The obligations -/

namespace Sys2Proof.Proofs

open Sys2Proof.Machine Sys2Proof.Claims

/-- Settles O17: `call` has the decode phase of every opcode; what it then does depends on whether `pc + 2` is a Word. -/
theorem callPushesReturnAddressAndJumps : Obligations.CallPushesReturnAddressAndJumps := by
  refine ⟨fun _ _ => decode_of_build (op := .call) rfl, decodePhase .call, fun s a t ha => ?_⟩
  have hval := val_of_resolves ha
  refine ⟨fun ra hra => ?word, fun htop => ?top⟩
  case word => exact exec_call_of_val hval hra
  case top =>
    rw [exec_call_of_top hval htop]
    exact endsInFault_takeFault ..

/-- Settles O18: `ret` has no operand to decode; what it does depends on whether the stack is empty. -/
theorem retPopsAddressOrUnderflows : Obligations.RetPopsAddressOrUnderflows := by
  refine ⟨fun _ => decode_of_build (op := .ret) rfl, fun s t rest h => ?top, fun s h => ?empty⟩
  case top => exact exec_ret_of_cons h
  case empty =>
    rw [exec_ret_of_nil h]
    exact endsInFault_takeFault ..

/-- Settles O52: the call leaves its return address on top of the stack it met, and the `ret` takes it off and goes there. -/
theorem retUndoesCall : Obligations.RetUndoesCall := by
  intro s t u a hr hlegal hslots hp hstep hur hret hstack
  obtain ⟨target, hval, -⟩ | ⟨-, hillegal⟩ := val_cases s a
  case inr => exact absurd hlegal (ne_true_of_eq_false hillegal)
  obtain ⟨ra, -, hra⟩ | ⟨htop, -⟩ := returnAddress_cases s.pc
  case inr => exact absurd htop (by simp only [Config.memSlots]; omega)
  have hcall : step s = .next ((s.push ra).jumpTo target) :=
    (step_eq_exec hr (fetchDecode_of_slotsAt (i := .call a) hlegal hslots)).trans (exec_call_of_val hval hra)
  cases hcall.symm.trans hstep
  exact ⟨rfl, _, (step_of_ret_slot hur hret).trans (exec_ret_of_cons hstack), rfl, (wordToPc_toNat ra).trans hra, rfl⟩

end Sys2Proof.Proofs

/-! PROOFS. The family of spec/47_io_system.md: `out` and `in` (R201, R202), the wait for a supply (R203, R224), `halt` and
`noop` (R204, R205). -/

/-! ### Bytes and Words of one number -/

namespace Sys2Proof.Machine

open Sys2Proof.Claims

/-- A Byte with the number of a Word modulo 256 is the Word's low byte (R201). -/
theorem lowByte_eq_of_toNat {v : Word} {b : Byte} (h : b.toNat = v.toNat % 256) : lowByte v = b :=
  BitVec.eq_of_toNat_eq ((lowByte_toNat v).trans h.symm)

/-- A Word with the number of a Byte is that Byte extended (R202; decision D26). -/
theorem byteToWord_eq_of_toNat {b : Byte} {v : Word} (h : v.toNat = b.toNat) : byteToWord b = v :=
  BitVec.eq_of_toNat_eq ((byteToWord_toNat b).trans h.symm)

/-- A supplied number below 256 keeps its value as a Byte and then as a Word (R224, R202; decision D26). -/
theorem byteToWord_ofNat_toNat {n : Nat} (h : n < 256) : (byteToWord (BitVec.ofNat 8 n)).toNat = n := by
  rw [byteToWord_toNat, BitVec.toNat_ofNat, Nat.mod_eq_of_lt h]

/-! ### What `out` and `in` do -/

/-- `out` with its value resolved appends the low byte and advances (R201). -/
theorem exec_out_of_val {s : State} {a : Operand} {v : Word} (ha : s.val a = .ok v) :
    exec (.out a) s = .next ((s.outPut (lowByte v)).advance 2) := by
  simp [exec, execOut, ha]

/-- `in` moves the oldest byte of the queue to its destination and advances (R202). -/
theorem exec_inp_of_cons {s : State} {r : RegIdx} {b : Byte} {rest : List Byte} (h : s.inq = b :: rest) :
    exec (.inp (.reg r)) s = .next ((State.setReg { s with inq := rest } r (byteToWord b)).advance 2) := by
  simp [exec, execIn, inTake_cons s b rest h]

/-- `in` on an empty queue suspends (R116, R202). -/
theorem exec_inp_of_nil {s : State} {r : RegIdx} (h : s.inq = []) : exec (.inp (.reg r)) s = .next s.suspend := by
  simp [exec, execIn, inTake_nil s h]

/-- A step at an `in` with a byte waiting is its completion (R114, R202). -/
theorem step_of_fed_inp {s : State} {r : RegIdx} {b : Byte} {rest : List Byte} (hr : s.run.steps = true)
    (hslots : SlotsAt s.mem s.pc.toNat (encode (.inp (.reg r)))) (hq : s.inq = b :: rest) :
    step s = .next ((State.setReg { s with inq := rest } r (byteToWord b)).advance 2) :=
  (step_eq_exec hr (fetchDecode_of_slotsAt rfl hslots)).trans (exec_inp_of_cons hq)

/-- A supply to a suspended core whose queue is empty makes its bytes the queue (R224). -/
theorem supplyBytes_inq_of_empty {s : State} (hq : s.inq = []) (bs : List Nat) :
    (s.supplyBytes bs).inq = bs.map (BitVec.ofNat 8) := by
  simp [State.supplyBytes, hq]

/-- A supply of at least one byte wakes a suspended core (R224). -/
theorem supplyBytes_run_of_suspended {s : State} (h : s.run = .suspended) (b : Nat) (bs : List Nat) :
    (s.supplyBytes (b :: bs)).run = .running := by
  simp [State.supplyBytes, h]

end Sys2Proof.Machine

/-! ### The obligations -/

namespace Sys2Proof.Proofs

open Sys2Proof.Machine Sys2Proof.Claims

/-- Settles O19: `out` has the decode phase of every opcode; its value resolved, it appends the low byte and advances. -/
theorem outAppendsLowByte : Obligations.OutAppendsLowByte := by
  refine ⟨fun _ _ => decode_of_build (op := .out) rfl, decodePhase .out, fun s a v b ha hb => ?_⟩
  obtain rfl := lowByte_eq_of_toNat hb
  exact exec_out_of_val (val_of_resolves ha)

/-- Settles O20: `in` has the decode phase of every opcode; what it then does depends on whether the queue is empty. -/
theorem inTakesOldestByteOrSuspends : Obligations.InTakesOldestByteOrSuspends := by
  refine ⟨fun _ _ => decode_of_build (op := .inp) rfl, decodePhase .inp, fun s r b rest v hq hv => ?available,
    fun s r hq => ?starved⟩
  case available =>
    obtain rfl := byteToWord_eq_of_toNat hv
    exact exec_inp_of_cons hq
  case starved => exact exec_inp_of_nil hq

/-- Settles O31: only a starved `in` suspends, and starved it suspends again; the supply makes its bytes the queue, so the
same `in` takes the first of them. -/
theorem suspendedCoreWaitsForSupply : Obligations.SuspendedCoreWaitsForSupply := by
  intro s t hr hstep hrun
  obtain ⟨hq, ⟨r, hd⟩, rfl⟩ := (stepEnd_of_step hr hstep).of_suspended hrun
  have hslots := slotsAt_of_fetchDecode hd
  refine ⟨?waits, step_of_starved_inp rfl hq hslots, fun b bs hbytes => ?supplied⟩
  case waits => simp [waiting, hq]
  case supplied =>
    have hsupply := supply_eq (List.all_eq_true.2 fun x hx => decide_eq_true (hbytes x hx)) s.suspend
    have hwakes := supplyBytes_run_of_suspended hrun b bs
    have hcompletes := step_of_fed_inp (s := s.suspend.supplyBytes (b :: bs)) (hwakes ▸ rfl) hslots
      (supplyBytes_inq_of_empty hq _)
    exact ⟨_, _, hsupply, hwakes, hcompletes, rfl, rfl, rfl, rfl, rfl, rfl, r, _, hslots,
      byteToWord_ofNat_toNat (hbytes b List.mem_cons_self), rfl⟩

/-- Settles O21: `halt` has no operand to decode, and only stops the run. -/
theorem haltChangesOnlyRunState : Obligations.HaltChangesOnlyRunState :=
  ⟨fun _ => decode_of_build (op := .halt) rfl, fun _ => rfl⟩

/-- Settles O22: `noop` has no operand to decode, and only advances by its one slot. -/
theorem noopChangesOnlyProgramCounter : Obligations.NoopChangesOnlyProgramCounter :=
  ⟨fun _ => decode_of_build (op := .noop) rfl, fun _ => rfl⟩

end Sys2Proof.Proofs

/-! PROOFS. The families of spec/48_host_operations.md and spec/60_exceptions.md: `load`, `supply` and `restore` (R221, R224,
R228), what a restored terminal snapshot does (R229), and the causes of the fault kinds (R250 to R257). -/

/-! ### Images -/

namespace Sys2Proof.Machine

open Sys2Proof.Claims

/-- Memory that holds an image reads its word at each address, and 0 beyond it (R221). -/
theorem memRead_ofImage (ws : List Raw) {n : Nat} (hn : n < Config.memSlots) :
    memRead (Memory.ofImage ws) n = some (ws[n]?.getD 0) := by
  have hcell : lookupCell (imageCells 0 ws) n = ws[n]?.getD Config.unlistedSlot := by
    simpa using lookupCell_imageCells ws 0 n
  rw [memRead, if_pos hn]
  exact congrArg some hcell

/-- The slot of two bytes is the one that has their little-endian number (R51). -/
theorem append_eq_of_toNat {lo hi : Byte} {w : Raw} (h : w.toNat = lo.toNat + 256 * hi.toNat) : hi ++ lo = w := by
  refine BitVec.eq_of_toNat_eq ?_
  rw [BitVec.toNat_append, ← Nat.shiftLeft_add_eq_or_of_lt lo.isLt, Nat.shiftLeft_eq, h]
  omega

/-- An odd number of bytes leaves a byte without its partner (R221; decision D17). -/
theorem imageWords_of_odd : ∀ {bs : List Byte}, bs.length % 2 = 1 → imageWords bs = none
  | [], h => by simp at h
  | [_], _ => rfl
  | _ :: _ :: rest, h => by
    have hrest : imageWords rest = none := imageWords_of_odd (by simp only [List.length_cons] at h; omega)
    rw [imageWords, hrest]
    rfl

/-- Words whose bytes stand in order, the low one first, are the words of the image (R51, R221). -/
theorem imageWords_of_bytes {ws : List Raw} : ∀ {bs : List Byte}, bs.length = 2 * ws.length →
    (∀ n w, ws[n]? = some w → ∃ lo hi, bs[2 * n]? = some lo ∧ bs[2 * n + 1]? = some hi ∧
      w.toNat = lo.toNat + 256 * hi.toNat) → imageWords bs = some ws := by
  induction ws with
  | nil =>
    intro bs hlen _
    rw [List.eq_nil_of_length_eq_zero hlen, imageWords]
  | cons w ws ih =>
    intro bs hlen hbytes
    match bs with
    | [] => cases hlen
    | [_] => simp only [List.length_cons, List.length_nil] at hlen; omega
    | lo :: hi :: rest =>
      have hrest : imageWords rest = some ws :=
        ih (by simp only [List.length_cons] at hlen; omega) fun n v hv => by
          simpa [Nat.mul_add] using hbytes (n + 1) v hv
      have hw : hi ++ lo = w := append_eq_of_toNat (by simpa using hbytes 0 w rfl)
      rw [imageWords, hrest, hw]
      rfl

/-! ### Snapshots -/

theorem snapshot_wf_iff (c : Snapshot) : c.wf = true ↔ c.pc.toNat ≤ 32768 ∧ c.mem.wf = true := by
  rw [Snapshot.wf, Bool.and_eq_true, decide_eq_true_iff]
  rfl

theorem capture_wf {s : State} (h : Inv s) : (capture s).wf = true := by
  obtain ⟨hpc, hmem, -⟩ := h
  exact (snapshot_wf_iff _).2 ⟨hpc, hmem⟩

/-- A restored core shows the snapshot and is `Ready` (R228). -/
theorem capture_of_restore {c : Snapshot} {s t : State} (h : restore c s = .next t) :
    capture t = c ∧ t.run = .ready := by
  unfold restore at h
  split at h
  · cases h
    exact ⟨rfl, rfl⟩
  · cases h

/-- A step that ends the run leaves the program-visible state (R115, R117; decisions D6 and D7). -/
theorem StepEnd.capture_eq {s t : State} (e : StepEnd s t) (h : t.run.steps = false) : capture t = capture s := by
  cases e with
  | faulted | halted => rfl
  | completed _ _ _ _ hrun =>
    rw [hrun] at h
    cases h
  | suspended => cases h

/-! ### A step that ends the run does not depend on the input -/

/-- An `in` with a legal destination completes or waits, whatever the queue (R202). -/
theorem steps_of_inp {s t : State} {r : RegIdx} (hr : s.run.steps = true) (hd : fetchDecode s = .instr (.inp (.reg r)))
    (h : step s = .next t) : t.run.steps = true := by
  rw [step_eq_exec hr hd] at h
  cases hq : s.inq with
  | nil =>
    cases (exec_inp_of_nil hq).symm.trans h
    rfl
  | cons b rest =>
    cases (exec_inp_of_cons hq).symm.trans h
    rfl

/-- A core that shows what `s` shows is `s` with its queue emptied, in other control state and with other input. -/
theorem eq_alter_of_capture_eq {s v : State} (h : capture v = capture s) :
    v = State.alter { s with inq := [] } v.run v.frec v.outlog v.inq := by
  cases v
  simp_all [capture, State.alter]

/-- Where a core with its queue emptied does not suspend, every core that shows the same and can step ends its step in the
same run state, with the same record if it faults. -/
theorem step_of_unfed {s u x : State} (hs : s.run.steps = true) (hu : u.run.steps = true)
    (hshow : capture u = capture s) (hx : step { s with inq := [] } = .next x) (hfed : x.run ≠ .suspended) :
    ∃ y, step u = .next y ∧ y.run = x.run ∧ (x.run = .faulted → y.frec = x.frec) := by
  obtain ⟨bs, -, hy⟩ := step_alike { s with inq := [] } u.run u.frec u.outlog u.inq hs hu hx fun h => absurd h hfed
  rw [← eq_alter_of_capture_eq hshow] at hy
  exact ⟨_, hy, rfl, fun hf => if_pos hf⟩

/-- A step that ends the run ends it alike in every core that shows the same and can step: only an `in` looks at the
queue, and it does not end the run (R229 d). -/
theorem step_ends_alike {s v t : State} (hs : s.run.steps = true) (hv : v.run.steps = true)
    (hshow : capture v = capture s) (hstep : step s = .next t) (hover : t.run.steps = false) :
    ∃ w, step v = .next w ∧ w.run = t.run ∧ (t.run = .faulted → w.frec = t.frec) := by
  obtain ⟨x, hx⟩ := step_total { s with inq := [] }
  have hfed : x.run ≠ .suspended := by
    intro hsusp
    obtain ⟨-, ⟨r, hd⟩, -⟩ := (stepEnd_of_step (s := { s with inq := [] }) hs hx).of_suspended hsusp
    exact Bool.false_ne_true (hover.symm.trans (steps_of_inp hs hd hstep))
  obtain ⟨y, hy, hyrun, hyfrec⟩ := step_of_unfed hs hs rfl hx hfed
  cases hy.symm.trans hstep
  obtain ⟨w, hw, hwrun, hwfrec⟩ := step_of_unfed hs hv hshow hx hfed
  rw [hyrun]
  exact ⟨w, hw, hwrun, fun hf => (hwfrec hf).trans (hyfrec hf).symm⟩

/-! ### The causes of the operand phase -/

/-- Why the operand phase over slots from `a` faults (R251, R252; decision D8). -/
inductive OperandCause (m : Memory) (a : Nat) (roles : List Role) : FaultKind → Prop where
  | missing (n : Nat) (hn : n < roles.length) (ha : Config.memSlots ≤ a + n) (hl : LegalBefore m a roles n) :
      OperandCause m a roles .outOfRange
  | illegal (n : Nat) (role : Role) (w : Raw) (hrole : roles[n]? = some role) (hw : memRead m (a + n) = some w)
      (hslot : ¬ LegalSlot role w) (hl : LegalBefore m a roles n) : OperandCause m a roles .invalidOperandEncoding

theorem legalBefore_zero (m : Memory) (a : Nat) (roles : List Role) : LegalBefore m a roles 0 := fun k hk =>
  absurd hk (Nat.not_lt_zero k)

/-- A legal slot before legal slots. -/
theorem legalBefore_succ {m : Memory} {a n : Nat} {role : Role} {roles : List Role} {w : Raw}
    (hw : memRead m a = some w) (hslot : LegalSlot role w) (h : LegalBefore m (a + 1) roles n) :
    LegalBefore m a (role :: roles) (n + 1) := by
  rintro (_ | k) hk
  · exact ⟨role, w, rfl, hw, hslot⟩
  · obtain ⟨role', w', hrole, hread, hlegal⟩ := h k (Nat.lt_of_succ_lt_succ hk)
    exact ⟨role', w', hrole, by rwa [← Nat.add_right_comm, Nat.add_assoc] at hread, hlegal⟩

/-- A cause after a legal slot is a cause one slot further on. -/
theorem OperandCause.cons {m : Memory} {a : Nat} {role : Role} {roles : List Role} {w : Raw} {k : FaultKind}
    (hw : memRead m a = some w) (hslot : LegalSlot role w) (h : OperandCause m (a + 1) roles k) :
    OperandCause m a (role :: roles) k := by
  cases h with
  | missing n hn ha hl =>
    exact .missing (n + 1) (Nat.succ_lt_succ hn) (by omega) (legalBefore_succ hw hslot hl)
  | illegal n role' w' hrole hw' hslot' hl =>
    have haddr : a + (n + 1) = a + 1 + n := by omega
    exact .illegal (n + 1) role' w' hrole (haddr ▸ hw') hslot' (legalBefore_succ hw hslot hl)

/-- Every fault of the loop has its cause at the slot where the loop stops (R113). -/
theorem operandCause_of_firstOperandFault {m : Memory} {roles : List Role} : ∀ {a : Nat} {k : FaultKind},
    firstOperandFault m roles a = some k → OperandCause m a roles k := by
  induction roles with
  | nil => exact nofun
  | cons role roles ih =>
    intro a k h
    unfold firstOperandFault at h
    split at h
    · next hm =>
      cases h
      exact .missing 0 (Nat.succ_pos _) ((memRead_none m a).1 hm) (legalBefore_zero m a _)
    · next w hm =>
      split at h
      · next hcheck =>
        cases h
        exact .illegal 0 role w rfl hm ((loopCheck_iff role w).1 hcheck) (legalBefore_zero m a _)
      · next hcheck => exact (ih h).cons hm (by rwa [loopCheck_iff, not_not] at hcheck)

/-- A fault of the operand phase is recorded from the cause its kind has (R251, R252). -/
theorem OperandCause.faultAllowed {s : State} {op : Opcode} {k : FaultKind} {fop : Option Raw}
    (h : OperandCause s.mem (s.pc.toNat + 1) op.roles k) (hop : memRead s.mem s.pc.toNat = some op.slot) :
    FaultAllowed s { kind := k, fpc := s.pc, fop := fop } := by
  cases h with
  | missing n hn ha hl => exact .inr (.inl ⟨op, n, hop, hn, ha, hl⟩)
  | illegal n role w hrole hw hslot hl => exact ⟨op, n, role, w, hop, hrole, hw, hslot, hl⟩

/-! ### The causes of an instruction's own faults -/

/-- An operand for which `val` answers denotes that Word (R83). -/
theorem resolves_of_val {s : State} {o : Operand} {v : Word} (h : s.val o = .ok v) : Resolves s o v := by
  cases o with
  | lit u | reg r => exact (Except.ok.inj h).symm
  | invalid w => cases h

/-- A whole instruction that ends `Faulted` took a fault from one of the causes (R114, R115). -/
theorem ExecEffect.faultCause {s t : State} {i : Instr} (e : ExecEffect s i t) (h : t.run = .faulted) :
    ∃ k, FaultCause s i k ∧ t = s.takeFault k (some i.opcode.slot) := by
  cases e with
  | fault _ k hk => exact ⟨k, hk, rfl⟩
  | _ => cases h

/-- A fault of the instruction decoded at `pc` is recorded from the cause its kind has (R251 to R257). -/
theorem FaultCause.faultAllowed {s : State} {i : Instr} {k : FaultKind} {fop : Option Raw} (h : FaultCause s i k)
    (hd : fetchDecode s = .instr i) : FaultAllowed s { kind := k, fpc := s.pc, fop := fop } := by
  obtain ⟨hop, hfit, -⟩ := fetchDecode_instr hd
  have hslots := slotsAt_of_fetchDecode hd
  cases h with
  | illegal _ hw =>
    have hloop := firstOperandFault_of_instr hd
    rw [hw] at hloop
    exact (operandCause_of_firstOperandFault hloop).faultAllowed hop
  | popEmpty r hs => exact ⟨hs, .inr ⟨r, hslots⟩⟩
  | retEmpty hs => exact ⟨hs, .inl hslots⟩
  | modZero r a b la _ hb => exact ⟨r, a, b, la, hslots, resolves_of_val hb⟩
  | nonWord r a ea w ha _ hread hw =>
    obtain ⟨-, v, hv, -⟩ | ⟨hge, -⟩ := slotAsWord_cases w
    · cases hw.symm.trans hv
    · exact ⟨r, a, ea, w, hslots, resolves_of_val ha, hread, hge⟩
  | callTop a la htop =>
    have hp : s.pc.toNat + 2 = 32766 + 2 := le_antisymm hfit htop
    exact .inr (.inr ⟨a, la, hslots, Nat.add_right_cancel hp⟩)

end Sys2Proof.Machine

/-! ### The obligations -/

namespace Sys2Proof.Proofs

open Sys2Proof.Machine Sys2Proof.Claims

/-- Settles O56: `load` keeps nothing but the image, each word of which reads back; an image's bytes pair up to its words
exactly when their number is even. -/
theorem loadInstallsImage : Obligations.LoadInstallsImage := by
  refine ⟨fun ws hlen => ?fits, fun ws hlen => ?long, fun bs hodd => ?odd, fun bs ws hlen hbytes => ?bytes⟩
  case fits => exact ⟨_, if_pos hlen, fun n hn => memRead_ofImage ws hn, rfl⟩
  case long => exact if_neg hlen.not_ge
  case odd => rw [loadImage, imageWords_of_odd hodd]
  case bytes => rw [loadImage, imageWords_of_bytes hlen hbytes]

/-- Settles O58: a capture of a state with the invariants is well-formed, so it is restored; a snapshot outside the bounds
is not. -/
theorem restoreReplacesFourComponents : Obligations.RestoreReplacesFourComponents := by
  refine ⟨fun s u h => if_pos (capture_wf h), fun s h => if_pos (capture_wf h), fun c u hbad => if_neg ?_⟩
  rw [snapshot_wf_iff, not_and_or, not_le, Bool.not_eq_true]
  exact hbad

/-- Settles O59: the restored core shows what the step left, which is what it began from, and can step; so its step ends
alike. -/
theorem restoredTerminalStateEndsAgain : Obligations.RestoredTerminalStateEndsAgain := by
  intro s t u v hr hstep hover hrestore
  obtain ⟨hshow, hready⟩ := capture_of_restore hrestore
  have hsame : capture t = capture s := (stepEnd_of_step hr hstep).capture_eq hover
  exact step_ends_alike hr (hready ▸ rfl) (hshow.trans hsame) hstep hover

/-- Settles O57: a supply is accepted exactly when every value is below 256. -/
theorem supplyAppendsBytes : Obligations.SupplyAppendsBytes := by
  refine fun s bs => ⟨fun hbytes => ?bytes, fun ⟨b, hb, hlarge⟩ => ?refused⟩
  case bytes =>
    rw [supply_next (List.all_eq_true.2 fun b hb => decide_eq_true (hbytes b hb))]
    simp
  case refused =>
    refine if_neg fun hall => ?_
    exact absurd (of_decide_eq_true (List.all_eq_true.1 hall b hb)) hlarge.not_gt

/-- Settles O27: an instruction that is not well-formed takes the fault in every state. -/
theorem illegalOperandHasNoEffect : Obligations.IllegalOperandHasNoEffect := by
  intro i s hw
  rw [exec_of_not_wellFormed hw]
  exact endsInFault_takeFault ..

/-- Settles O29: a step faults at the opcode fetch, at an opcode slot that names none, in the operand phase, or in the
decoded instruction, and each of these has its cause. -/
theorem faultKindsComeFromTheirCauses : Obligations.FaultKindsComeFromTheirCauses := by
  intro s t r hr hstep hrun hfrec
  cases step_next hr hstep with
  | outside hp =>
    cases hfrec
    exact .inl hp
  | unknown w hread hw =>
    cases hfrec
    exact ⟨w, hread, hw⟩
  | short op hop hf =>
    cases hfrec
    have hloop := firstOperandFault_of_short s.mem (memRead_lt hop) hf
    exact (operandCause_of_firstOperandFault hloop).faultAllowed hop
  | run i _ hd _ e =>
    obtain ⟨k, hcause, rfl⟩ := e.faultCause hrun
    cases hfrec
    exact hcause.faultAllowed hd

end Sys2Proof.Proofs
